-- ==== Sys2Proof/Word.lean ====
section
/-!
DEFINITION. Word.lean: bytes and the fixed-size groups of bytes the block's registers hold
(00_scope.md rules R6, R8; 10_state.md rules R22 to R25).

A 16-byte register is four groups of four bytes, so that its length is part of its type and
no value of another length can be built. Index 0 is the first byte everywhere (rule R9).
-/

namespace Sys2Proof

/-- A byte, an unsigned integer in 0..255 (R8). -/
abbrev Byte := BitVec 8

/-- Four bytes in index order: a word of the AES key schedule, a column of the AES state. -/
structure Quad where
  b0 : Byte
  b1 : Byte
  b2 : Byte
  b3 : Byte
  deriving DecidableEq, Repr, Inhabited

/-- Sixteen bytes in index order (R22, R23, R25): byte `4 * c + r` is field `b<r>` of field `c<c>`. -/
structure Block where
  c0 : Quad
  c1 : Quad
  c2 : Quad
  c3 : Quad
  deriving DecidableEq, Repr, Inhabited

/-- Eight bytes in index order: the PublicKeyToken (R24). -/
structure Token where
  q0 : Quad
  q1 : Quad
  deriving DecidableEq, Repr, Inhabited

/-- The four bytes as a sequence, index 0 first. -/
def Quad.bytes (q : Quad) : List Byte := [q.b0, q.b1, q.b2, q.b3]

/-- The sixteen bytes as a sequence, index 0 first. -/
def Block.bytes (b : Block) : List Byte := b.c0.bytes ++ b.c1.bytes ++ b.c2.bytes ++ b.c3.bytes

/-- The eight bytes as a sequence, index 0 first. -/
def Token.bytes (t : Token) : List Byte := t.q0.bytes ++ t.q1.bytes

/-- Element-by-element exclusive or (R9). -/
def Quad.xor (a b : Quad) : Quad := ⟨a.b0 ^^^ b.b0, a.b1 ^^^ b.b1, a.b2 ^^^ b.b2, a.b3 ^^^ b.b3⟩

/-- Element-by-element exclusive or (R9). -/
def Block.xor (a b : Block) : Block := ⟨a.c0.xor b.c0, a.c1.xor b.c1, a.c2.xor b.c2, a.c3.xor b.c3⟩

/-- Four equal bytes. -/
def Quad.fill (b : Byte) : Quad := ⟨b, b, b, b⟩

/-- Sixteen equal bytes, written `b^16` in the spec (R9). -/
def Block.fill (b : Byte) : Block := ⟨.fill b, .fill b, .fill b, .fill b⟩

/-- Eight equal bytes. -/
def Token.fill (b : Byte) : Token := ⟨.fill b, .fill b⟩

/-- Read a block from a sequence of exactly sixteen bytes; any other length is no block (R201, R209). -/
def Block.ofList? : List Byte → Option Block
  | [x0, x1, x2, x3, x4, x5, x6, x7, x8, x9, x10, x11, x12, x13, x14, x15] =>
      some ⟨⟨x0, x1, x2, x3⟩, ⟨x4, x5, x6, x7⟩, ⟨x8, x9, x10, x11⟩, ⟨x12, x13, x14, x15⟩⟩
  | _ => none

/-- Read a token from a sequence of exactly eight bytes; any other length is no token (R203, R209). -/
def Token.ofList? : List Byte → Option Token
  | [x0, x1, x2, x3, x4, x5, x6, x7] => some ⟨⟨x0, x1, x2, x3⟩, ⟨x4, x5, x6, x7⟩⟩
  | _ => none

end Sys2Proof
end

