-- ==== Sys2Proof/Machine/Aes.lean ====
section
/-!
DEFINITION. Machine/Aes.lean: the block primitive E, D, which is AES-128 (40_aes128.md rules R90 to R102).

The AES state is a `Block`: column `c` is the field `c<c>` and row `r` the field `b<r>` of it,
so input byte `i` stands at row `i mod 4`, column `i div 4` (R56, R90). The spec supplies this
algorithm from general knowledge (93_implementation_defined.md U1); log entry 10.
-/

namespace Sys2Proof.Machine

/-! ## GF(2^8) (R91) -/

/-- Multiplication by 2 in GF(2^8), reduced by 0x11B (R91). -/
def xtime (a : Byte) : Byte := if a.getLsbD 7 then (a <<< 1) ^^^ 0x1B#8 else a <<< 1

/-- `a * 3` in GF(2^8) (R91). -/
def mul3 (a : Byte) : Byte := xtime a ^^^ a

/-- `a * 9` in GF(2^8) (R91). -/
def mul9 (a : Byte) : Byte := xtime (xtime (xtime a)) ^^^ a

/-- `a * 11` in GF(2^8) (R91). -/
def mul11 (a : Byte) : Byte := xtime (xtime (xtime a)) ^^^ xtime a ^^^ a

/-- `a * 13` in GF(2^8) (R91). -/
def mul13 (a : Byte) : Byte := xtime (xtime (xtime a)) ^^^ xtime (xtime a) ^^^ a

/-- `a * 14` in GF(2^8) (R91). -/
def mul14 (a : Byte) : Byte := xtime (xtime (xtime a)) ^^^ xtime (xtime a) ^^^ xtime a

/-- `xtime` applied `n` times. -/
def xtimes : Nat → Byte → Byte
  | 0, a => a
  | n + 1, a => xtime (xtimes n a)

/-- The product of any two bytes in GF(2^8): the xor, over every bit `i` set in `b`, of `xtime`
applied `i` times to `a` (R91). The cipher uses only the fixed multiples above. -/
def gfMul (a b : Byte) : Byte :=
  (List.range 8).foldl (fun acc i => if b.getLsbD i then acc ^^^ xtimes i a else acc) 0

/-! ## The S-box (R92, R93): row is the high nibble of the index, column the low nibble -/

/-- Rows 0 to 7 of the table of R92. -/
def sboxRowsLow : List (List Nat) :=
  [[0x63, 0x7C, 0x77, 0x7B, 0xF2, 0x6B, 0x6F, 0xC5, 0x30, 0x01, 0x67, 0x2B, 0xFE, 0xD7, 0xAB, 0x76],
   [0xCA, 0x82, 0xC9, 0x7D, 0xFA, 0x59, 0x47, 0xF0, 0xAD, 0xD4, 0xA2, 0xAF, 0x9C, 0xA4, 0x72, 0xC0],
   [0xB7, 0xFD, 0x93, 0x26, 0x36, 0x3F, 0xF7, 0xCC, 0x34, 0xA5, 0xE5, 0xF1, 0x71, 0xD8, 0x31, 0x15],
   [0x04, 0xC7, 0x23, 0xC3, 0x18, 0x96, 0x05, 0x9A, 0x07, 0x12, 0x80, 0xE2, 0xEB, 0x27, 0xB2, 0x75],
   [0x09, 0x83, 0x2C, 0x1A, 0x1B, 0x6E, 0x5A, 0xA0, 0x52, 0x3B, 0xD6, 0xB3, 0x29, 0xE3, 0x2F, 0x84],
   [0x53, 0xD1, 0x00, 0xED, 0x20, 0xFC, 0xB1, 0x5B, 0x6A, 0xCB, 0xBE, 0x39, 0x4A, 0x4C, 0x58, 0xCF],
   [0xD0, 0xEF, 0xAA, 0xFB, 0x43, 0x4D, 0x33, 0x85, 0x45, 0xF9, 0x02, 0x7F, 0x50, 0x3C, 0x9F, 0xA8],
   [0x51, 0xA3, 0x40, 0x8F, 0x92, 0x9D, 0x38, 0xF5, 0xBC, 0xB6, 0xDA, 0x21, 0x10, 0xFF, 0xF3, 0xD2]]

/-- Rows 8 to F of the table of R92. -/
def sboxRowsHigh : List (List Nat) :=
  [[0xCD, 0x0C, 0x13, 0xEC, 0x5F, 0x97, 0x44, 0x17, 0xC4, 0xA7, 0x7E, 0x3D, 0x64, 0x5D, 0x19, 0x73],
   [0x60, 0x81, 0x4F, 0xDC, 0x22, 0x2A, 0x90, 0x88, 0x46, 0xEE, 0xB8, 0x14, 0xDE, 0x5E, 0x0B, 0xDB],
   [0xE0, 0x32, 0x3A, 0x0A, 0x49, 0x06, 0x24, 0x5C, 0xC2, 0xD3, 0xAC, 0x62, 0x91, 0x95, 0xE4, 0x79],
   [0xE7, 0xC8, 0x37, 0x6D, 0x8D, 0xD5, 0x4E, 0xA9, 0x6C, 0x56, 0xF4, 0xEA, 0x65, 0x7A, 0xAE, 0x08],
   [0xBA, 0x78, 0x25, 0x2E, 0x1C, 0xA6, 0xB4, 0xC6, 0xE8, 0xDD, 0x74, 0x1F, 0x4B, 0xBD, 0x8B, 0x8A],
   [0x70, 0x3E, 0xB5, 0x66, 0x48, 0x03, 0xF6, 0x0E, 0x61, 0x35, 0x57, 0xB9, 0x86, 0xC1, 0x1D, 0x9E],
   [0xE1, 0xF8, 0x98, 0x11, 0x69, 0xD9, 0x8E, 0x94, 0x9B, 0x1E, 0x87, 0xE9, 0xCE, 0x55, 0x28, 0xDF],
   [0x8C, 0xA1, 0x89, 0x0D, 0xBF, 0xE6, 0x42, 0x68, 0x41, 0x99, 0x2D, 0x0F, 0xB0, 0x54, 0xBB, 0x16]]

/-- Rows 0 to 7 of the table of R93. -/
def invSboxRowsLow : List (List Nat) :=
  [[0x52, 0x09, 0x6A, 0xD5, 0x30, 0x36, 0xA5, 0x38, 0xBF, 0x40, 0xA3, 0x9E, 0x81, 0xF3, 0xD7, 0xFB],
   [0x7C, 0xE3, 0x39, 0x82, 0x9B, 0x2F, 0xFF, 0x87, 0x34, 0x8E, 0x43, 0x44, 0xC4, 0xDE, 0xE9, 0xCB],
   [0x54, 0x7B, 0x94, 0x32, 0xA6, 0xC2, 0x23, 0x3D, 0xEE, 0x4C, 0x95, 0x0B, 0x42, 0xFA, 0xC3, 0x4E],
   [0x08, 0x2E, 0xA1, 0x66, 0x28, 0xD9, 0x24, 0xB2, 0x76, 0x5B, 0xA2, 0x49, 0x6D, 0x8B, 0xD1, 0x25],
   [0x72, 0xF8, 0xF6, 0x64, 0x86, 0x68, 0x98, 0x16, 0xD4, 0xA4, 0x5C, 0xCC, 0x5D, 0x65, 0xB6, 0x92],
   [0x6C, 0x70, 0x48, 0x50, 0xFD, 0xED, 0xB9, 0xDA, 0x5E, 0x15, 0x46, 0x57, 0xA7, 0x8D, 0x9D, 0x84],
   [0x90, 0xD8, 0xAB, 0x00, 0x8C, 0xBC, 0xD3, 0x0A, 0xF7, 0xE4, 0x58, 0x05, 0xB8, 0xB3, 0x45, 0x06],
   [0xD0, 0x2C, 0x1E, 0x8F, 0xCA, 0x3F, 0x0F, 0x02, 0xC1, 0xAF, 0xBD, 0x03, 0x01, 0x13, 0x8A, 0x6B]]

/-- Rows 8 to F of the table of R93. -/
def invSboxRowsHigh : List (List Nat) :=
  [[0x3A, 0x91, 0x11, 0x41, 0x4F, 0x67, 0xDC, 0xEA, 0x97, 0xF2, 0xCF, 0xCE, 0xF0, 0xB4, 0xE6, 0x73],
   [0x96, 0xAC, 0x74, 0x22, 0xE7, 0xAD, 0x35, 0x85, 0xE2, 0xF9, 0x37, 0xE8, 0x1C, 0x75, 0xDF, 0x6E],
   [0x47, 0xF1, 0x1A, 0x71, 0x1D, 0x29, 0xC5, 0x89, 0x6F, 0xB7, 0x62, 0x0E, 0xAA, 0x18, 0xBE, 0x1B],
   [0xFC, 0x56, 0x3E, 0x4B, 0xC6, 0xD2, 0x79, 0x20, 0x9A, 0xDB, 0xC0, 0xFE, 0x78, 0xCD, 0x5A, 0xF4],
   [0x1F, 0xDD, 0xA8, 0x33, 0x88, 0x07, 0xC7, 0x31, 0xB1, 0x12, 0x10, 0x59, 0x27, 0x80, 0xEC, 0x5F],
   [0x60, 0x51, 0x7F, 0xA9, 0x19, 0xB5, 0x4A, 0x0D, 0x2D, 0xE5, 0x7A, 0x9F, 0x93, 0xC9, 0x9C, 0xEF],
   [0xA0, 0xE0, 0x3B, 0x4D, 0xAE, 0x2A, 0xF5, 0xB0, 0xC8, 0xEB, 0xBB, 0x3C, 0x83, 0x53, 0x99, 0x61],
   [0x17, 0x2B, 0x04, 0x7E, 0xBA, 0x77, 0xD6, 0x26, 0xE1, 0x69, 0x14, 0x63, 0x55, 0x21, 0x0C, 0x7D]]

/-- The entry of a 16 by 16 table at index `a`: row the high nibble, column the low nibble. -/
def tableAt (rows : List (List Nat)) (a : Byte) : Byte :=
  BitVec.ofNat 8 ((rows.getD (a.toNat / 16) []).getD (a.toNat % 16) 0)

/-- `SBOX[a]` (R92). -/
def sbox (a : Byte) : Byte := tableAt (sboxRowsLow ++ sboxRowsHigh) a

/-- `INV_SBOX[a]` (R93). -/
def invSbox (a : Byte) : Byte := tableAt (invSboxRowsLow ++ invSboxRowsHigh) a

/-! ## The round transformations -/

/-- A byte function applied to each byte of a column. -/
def mapQuad (f : Byte → Byte) (q : Quad) : Quad := ⟨f q.b0, f q.b1, f q.b2, f q.b3⟩

/-- A column function applied to each column of a state. -/
def mapColumns (f : Quad → Quad) (s : Block) : Block := ⟨f s.c0, f s.c1, f s.c2, f s.c3⟩

/-- SubBytes (R94). -/
def subBytes (s : Block) : Block := mapColumns (mapQuad sbox) s

/-- InvSubBytes (R94). -/
def invSubBytes (s : Block) : Block := mapColumns (mapQuad invSbox) s

/-- ShiftRows: row `r` rotated left by `r` places (R95). -/
def shiftRows (s : Block) : Block :=
  ⟨⟨s.c0.b0, s.c1.b1, s.c2.b2, s.c3.b3⟩, ⟨s.c1.b0, s.c2.b1, s.c3.b2, s.c0.b3⟩,
   ⟨s.c2.b0, s.c3.b1, s.c0.b2, s.c1.b3⟩, ⟨s.c3.b0, s.c0.b1, s.c1.b2, s.c2.b3⟩⟩

/-- InvShiftRows: row `r` rotated right by `r` places (R95). -/
def invShiftRows (s : Block) : Block :=
  ⟨⟨s.c0.b0, s.c3.b1, s.c2.b2, s.c1.b3⟩, ⟨s.c1.b0, s.c0.b1, s.c3.b2, s.c2.b3⟩,
   ⟨s.c2.b0, s.c1.b1, s.c0.b2, s.c3.b3⟩, ⟨s.c3.b0, s.c2.b1, s.c1.b2, s.c0.b3⟩⟩

/-- MixColumns on one column (R96). -/
def mixColumn (a : Quad) : Quad :=
  ⟨xtime a.b0 ^^^ mul3 a.b1 ^^^ a.b2 ^^^ a.b3,
   a.b0 ^^^ xtime a.b1 ^^^ mul3 a.b2 ^^^ a.b3,
   a.b0 ^^^ a.b1 ^^^ xtime a.b2 ^^^ mul3 a.b3,
   mul3 a.b0 ^^^ a.b1 ^^^ a.b2 ^^^ xtime a.b3⟩

/-- InvMixColumns on one column (R97). -/
def invMixColumn (a : Quad) : Quad :=
  ⟨mul14 a.b0 ^^^ mul11 a.b1 ^^^ mul13 a.b2 ^^^ mul9 a.b3,
   mul9 a.b0 ^^^ mul14 a.b1 ^^^ mul11 a.b2 ^^^ mul13 a.b3,
   mul13 a.b0 ^^^ mul9 a.b1 ^^^ mul14 a.b2 ^^^ mul11 a.b3,
   mul11 a.b0 ^^^ mul13 a.b1 ^^^ mul9 a.b2 ^^^ mul14 a.b3⟩

/-- MixColumns (R96). -/
def mixColumns (s : Block) : Block := mapColumns mixColumn s

/-- InvMixColumns (R97). -/
def invMixColumns (s : Block) : Block := mapColumns invMixColumn s

/-- AddRoundKey (R98). -/
def addRoundKey (s rk : Block) : Block := s.xor rk

/-! ## Key expansion (R99, R100) -/

/-- `RCON[1..10]`, first entry `RCON[1]` (R99). -/
def rcon : List Byte := [0x01, 0x02, 0x04, 0x08, 0x10, 0x20, 0x40, 0x80, 0x1B, 0x36]

/-- RotWord, SubWord and the round constant, the change made to `w[i-1]` when `i mod 4 = 0` (R100). -/
def scheduleWord (rc : Byte) (t : Quad) : Quad :=
  ⟨sbox t.b1 ^^^ rc, sbox t.b2, sbox t.b3, sbox t.b0⟩

/-- The next round key: four words of the expansion from the four before them (R100). -/
def nextRoundKey (rc : Byte) (k : Block) : Block :=
  let w0 := k.c0.xor (scheduleWord rc k.c3)
  let w1 := k.c1.xor w0
  let w2 := k.c2.xor w1
  let w3 := k.c3.xor w2
  ⟨w0, w1, w2, w3⟩

/-- The round keys after `k`, one for each round constant left (R100). -/
def roundKeysFrom : List Byte → Block → List Block
  | [], _ => []
  | rc :: rcs, k => let k' := nextRoundKey rc k; k' :: roundKeysFrom rcs k'

/-- `rk[1], ..., rk[10]`; `rk[0]` is the key itself (R100). -/
def roundKeys (k : Block) : List Block := roundKeysFrom rcon k

/-! ## The cipher and its inverse (R101, R102) -/

/-- Rounds of the forward cipher under the round keys given; the last one has no MixColumns (R101). -/
def encRounds : List Block → Block → Block
  | [], s => s
  | [rk], s => addRoundKey (shiftRows (subBytes s)) rk
  | rk :: rks, s => encRounds rks (addRoundKey (mixColumns (shiftRows (subBytes s))) rk)

/-- Rounds of the inverse cipher, undone from the last round key back (R102). -/
def decRounds : List Block → Block → Block
  | [], s => s
  | [rk], s => invSubBytes (invShiftRows (addRoundKey s rk))
  | rk :: rks, s => invSubBytes (invShiftRows (invMixColumns (addRoundKey (decRounds rks s) rk)))

/-- `E(k, x)` (R101). -/
def aesE (k x : Block) : Block := encRounds (roundKeys k) (addRoundKey x k)

/-- `D(k, y)` (R102). -/
def aesD (k y : Block) : Block := addRoundKey (decRounds (roundKeys k) y) k

end Sys2Proof.Machine
end

