-- ==== Sys2Proof/Config.lean ====
section
/-!
DEFINITION. Config.lean: the open parameters of the block (00_scope.md rule R7) and the values the
spec leaves unspecified (R11), each an opaque constant of which Lean knows nothing.

`BLOCKCIPHER` has this hardware's own value, AES-128 (R2, Machine/Aes.lean); `BUSBIND` is bound to
nothing, since no rule depends on it (R7; log entry 15).
-/

namespace Sys2Proof

/-- The parameters `BUFCAP` and `LENW` of R7; `none` is the spec's `unbounded`. They are plain data
carried by the state and changed by no step, so that a statement about every state holds for every
value of them (log entry 3). -/
structure Params where
  /-- `BUFCAP`: the capacity of BUF in bytes. -/
  bufcap : Option Nat
  /-- `LENW`: the width of LEN in bits. -/
  lenw : Option Nat
  deriving DecidableEq, Repr, Inhabited

/-! FREE VALUES. Each is applied to `State.fresh`, a counter that every use advances, so that two
unspecified values need not be equal (R11); and, where the block holds something there that it might
show, to that as well, so that nothing can be proved of what it hides (R262). No proof can see what any
of them is. -/

/-- The sixteen bytes the RNG answers with when the agenda does not say which (R141; log entry 6). -/
opaque Config.freeDraw : Nat → Block

/-- An unspecified value of a 16-byte register that holds the block given: its content after RESET (R40;
log entry 2), or what RDIV and RDDKEY give while its valid flag is 0 or BUSY is 1 (R31, R209; log
entry 8). -/
opaque Config.freeBlock : Nat → Block → Block

/-- The unspecified content of TOK after RESET, TOK having held the token given (R40; log entry 2). -/
opaque Config.freeToken : Nat → Token → Token

/-- What RDLEN gives while BUSY is 1 and LEN is the number given, before it is brought into LEN's range
(R209; log entry 8). -/
opaque Config.freeLen : Nat → Nat → Nat

/-- What RDBUF gives while BUSY is 1 and BUF holds the bytes given, before it is cut to the capacity
(R209; log entry 8). -/
opaque Config.freeBytes : Nat → List (Nat × Byte) → List Byte

end Sys2Proof
end

