-- ==== Sys2Proof/Syntax.lean ====
section
/-!
DEFINITION. Syntax.lean: the seven operations (30_encoding.md rule R71), the host's actions
(46_host_actions.md rules R200 to R208), the turns of the three agents (00_scope.md rule R5) and
the lines of the host notation (R77, R78).
-/

namespace Sys2Proof

/-- The seven operations of the opcode map (R71). A command carries no operand of any kind: every
operand is implicit (R70, R73). -/
inductive Instr where
  /-- FirmwareContainerCodec.decrypt (R152). -/
  | fwdec
  /-- FirmwareContainerCodec.encrypt (R151). -/
  | fwenc
  /-- BlockCipherEngine.decryptBlock (R125). -/
  | cbcdec
  /-- BlockCipherEngine.encryptBlock (R124). -/
  | cbcenc
  /-- KeyDeriver.derive (R172). -/
  | kdf
  /-- IVGenerator.generate (R140). -/
  | ivgen
  /-- ResourceXorDecoder.decode (R187). -/
  | xordec
  deriving DecidableEq, Repr

/-- The host's actions. The writes carry byte sequences of any length, since the spec says what the
block does with a wrong one (R209). -/
inductive HostAction where
  /-- RESET (R200). -/
  | reset
  /-- WKEY (R201). -/
  | wkey (k : List Byte)
  /-- WIV (R202). -/
  | wiv (v : List Byte)
  /-- WTOK (R203). -/
  | wtok (t : List Byte)
  /-- LDBUF (R204). -/
  | ldbuf (d : List Byte)
  /-- ISSUE of any byte, legal or not (R205). -/
  | issue (b : Byte)
  /-- RDSTAT (R206). -/
  | rdstat
  /-- RDERR (R206). -/
  | rderr
  /-- RDLEN (R207). -/
  | rdlen
  /-- RDBUF (R207). -/
  | rdbuf
  /-- RDIV (R208). -/
  | rdiv
  /-- RDDKEY (R208). -/
  | rddkey
  deriving DecidableEq, Repr

/-- One move of one of the three agents (R5). -/
inductive Turn where
  /-- The host performs an action. -/
  | host (a : HostAction)
  /-- The host polls RDSTAT until DONE is 1 (R212). -/
  | wait
  /-- The CORE may take its EXEC step (R210). -/
  | core
  /-- The CORE may take its EXEC step, and if that step asks for a draw the RNG answers it with these
  sixteen bytes (R77 `exec draw=`, R141). -/
  | coreDraw (r : Block)
  /-- The RNG makes these sixteen bytes available (R215). -/
  | rng (r : Block)
  deriving DecidableEq, Repr

/-- One line of the host notation (R77); `exec` marks the CORE's step and may name its draw. -/
inductive Line where
  /-- Any line that is one host action. -/
  | act (a : HostAction)
  /-- `issue <mnemonic>`. -/
  | issueOp (i : Instr)
  /-- `wait`. -/
  | waitDone
  /-- `exec`. -/
  | exec
  /-- `exec draw=<hex32>`. -/
  | execDraw (r : Block)
  deriving DecidableEq, Repr

/-- The macros of the host notation (R78), one for each of the document's contracts. -/
inductive Macro where
  | encrypt (p k : List Byte)
  | decrypt (c k : List Byte)
  | encryptBlock (k v p : List Byte)
  | decryptBlock (k v c : List Byte)
  | generate
  | derive (t : List Byte)
  | decode (b : List Byte)
  deriving DecidableEq, Repr

end Sys2Proof
end

