-- ==== Sys2Proof/WellFormed.lean ====
section
/-!
DEFINITION. WellFormed.lean: the checks on what the spec limits. An `Instr` carries no field (R70),
so every one is well formed; what can be ill formed is a command byte (R74), a host action's
argument (R201 to R204, R209) and the parameters (R7).
-/

namespace Sys2Proof

/-- R7: `BUFCAP >= 32` and `2^LENW > BUFCAP`, where a bound is given. -/
def Params.wf (p : Params) : Bool :=
  match p.bufcap, p.lenw with
  | none, none => true
  | none, some _ => false
  | some c, none => decide (32 ≤ c)
  | some c, some w => decide (32 ≤ c) && decide (c < 2 ^ w)

/-- `n <= BUFCAP` (R53, R204, R237). -/
def Params.fits (p : Params) (n : Nat) : Bool :=
  match p.bufcap with
  | none => true
  | some c => decide (n ≤ c)

/-- A command byte that selects an operation: `RSV = 0` and `OPC` not 7 (R74). -/
def legalCommand (b : Byte) : Bool := decide (b.toNat / 8 = 0) && decide (b.toNat % 8 ≠ 7)

/-- Every operation is well formed: a command has no operand field to be wrong (R70, R73). -/
def Instr.wf : Instr → Bool
  | .fwdec | .fwenc | .cbcdec | .cbcenc | .kdf | .ivgen | .xordec => true

/-- A host action whose argument the block can take (R201 to R204, R209). -/
def HostAction.wf (p : Params) : HostAction → Bool
  | .wkey k => decide (k.length = 16)
  | .wiv v => decide (v.length = 16)
  | .wtok t => decide (t.length = 8)
  | .ldbuf d => p.fits d.length
  | .reset | .issue _ | .rdstat | .rderr | .rdlen | .rdbuf | .rdiv | .rddkey => true

end Sys2Proof
end

