-- ==== Sys2Proof/Decode.lean ====
section
/-!
DEFINITION. Decode.lean: the command byte (30_encoding.md rules R70 to R76), its decoder, which
answers for all 256 values, and the encoder. A command is always exactly one byte (R76).
-/

namespace Sys2Proof

/-- Why a byte selects no operation (R74). Both are answered with ILLEGAL_CMD (R235). -/
inductive DecodeError where
  /-- `RSV` is not 0: bytes 0x08 to 0xFF. -/
  | reservedBitsSet
  /-- `RSV = 0` and `OPC = 7`: byte 0x07. -/
  | unassignedOpcode
  deriving DecidableEq, Repr

/-- Field `RSV`, bits 7:3 (R70). -/
def rsvField (b : Byte) : BitVec 5 := b.extractLsb' 3 5

/-- Field `OPC`, bits 2:0 (R70). -/
def opcField (b : Byte) : BitVec 3 := b.extractLsb' 0 3

/-- Field `ENC` of a cipher command, bit 0: 1 encrypts (R70, R72). -/
def encField (b : Byte) : Bool := b.getLsbD 0

/-- Field `RAW` of a cipher command, bit 1: 1 selects the bare engine (R70). -/
def rawField (b : Byte) : Bool := b.getLsbD 1

/-- The operation a command byte selects, if any; `RSV` is looked at first (R71, R74, R211). -/
def decode (b : Byte) : Except DecodeError Instr :=
  if rsvField b = 0 then
    match (opcField b).toNat with
    | 0 => .ok .fwdec
    | 1 => .ok .fwenc
    | 2 => .ok .cbcdec
    | 3 => .ok .cbcenc
    | 4 => .ok .kdf
    | 5 => .ok .ivgen
    | 6 => .ok .xordec
    | _ => .error .unassignedOpcode
  else .error .reservedBitsSet

/-- The command byte of an operation (R71). -/
def encode : Instr → Byte
  | .fwdec => 0b00000000#8
  | .fwenc => 0b00000001#8
  | .cbcdec => 0b00000010#8
  | .cbcenc => 0b00000011#8
  | .kdf => 0b00000100#8
  | .ivgen => 0b00000101#8
  | .xordec => 0b00000110#8

/-- The instruction read from a table row's bits: one byte, so nothing stands above bit 7. -/
def decodeTableWord (nbits w : Nat) : Option Instr :=
  if nbits = 8 ∧ w < 256 then
    match decode (BitVec.ofNat 8 w) with
    | .ok i => some i
    | .error _ => none
  else none

/-- The choice the document's mode flag makes between the two macros: present encrypts (R72, R78). -/
def modeFlagCommand (present : Bool) : Byte := if present then encode .fwenc else encode .fwdec

end Sys2Proof
end

