-- ==== Sys2Proof/Machine/State.lean ====
section
/-!
DEFINITION. Machine/State.lean: the architectural state of 10_state.md rule R20, the other two
agents as the model holds them (00_scope.md rule R5), the reasons a step can stop, and the state
right after power-on (R40, R260).
-/

namespace Sys2Proof.Machine

/-- The buffer's bytes: (address, byte) pairs, addresses strictly rising. An address that is not
listed holds no value at all, so the form is canonical (log entry 4). -/
abbrev Mem := List Host.Cell

/-- The six flags of STATUS (R29). The register's value as the host reads it is
`Sys2Proof.Machine.statusByte`; its reserved bits 7:6 have nothing behind them. -/
structure Status where
  /-- An operation has been issued and has not completed (R32). -/
  busy : Bool
  /-- The last issued operation has completed (R32). -/
  done : Bool
  /-- KEY has been written since reset (R31). -/
  keyv : Bool
  /-- IV has been written since reset (R31). -/
  ivv : Bool
  /-- TOK has been written since reset (R31). -/
  tokv : Bool
  /-- DKEY has been written since reset (R31). -/
  dkv : Bool
  deriving DecidableEq, Repr, Inhabited

/-- The result of an operation: exactly the eight values of R230 (93_implementation_defined.md I12). -/
inductive Err where
  | ok
  /-- FWDEC: LEN < 16 (R231). -/
  | tooShort
  /-- FWDEC, CBCDEC: ciphertext length zero or no multiple of 16 (R232). -/
  | invalidLength
  /-- FWDEC: the padding check failed (R233). -/
  | badPaddingOrKey
  /-- CBCDEC: the padding check failed (R234). -/
  | paddingError
  /-- The command byte selects no operation (R235). -/
  | illegalCmd
  /-- A needed operand register was never written (R236). -/
  | noOperand
  /-- FWENC, CBCENC: the result would not fit (R237). -/
  | overflow
  deriving DecidableEq, Repr, Inhabited

/-- What a read action gives back to the host (R206 to R208). -/
inductive Reading where
  | status (v : Byte)
  | err (v : Byte)
  | len (n : Nat)
  | buf (bs : List Byte)
  | iv (v : Block)
  | dkey (v : Block)
  deriving DecidableEq, Repr

/-- The whole machine. The first nine fields are the architectural state (R20); the last five are
the model's own: the parameters (R7), the RNG agent's answers not yet drawn (R215), the moves still
to come, what the host has read so far, and the counter the free values are applied to. -/
structure State where
  /-- The cipher key (R22). -/
  key : Block
  /-- The initialization vector (R23). -/
  iv : Block
  /-- The PublicKeyToken (R24). -/
  tok : Token
  /-- The DerivedKey (R25). -/
  dkey : Block
  /-- The data buffer (R26). -/
  buf : Mem
  /-- The number of valid bytes in BUF (R27). -/
  len : Nat
  /-- The command byte last issued (R28). -/
  cmd : Byte
  /-- The flags (R29). -/
  status : Status
  /-- The result code of the last completed operation (R30). -/
  err : Err
  /-- BUFCAP and LENW, the same in every state of a run (R7; log entry 3). -/
  params : Params
  /-- What the RNG has made available, oldest first (R142, R215; log entry 5). -/
  rng : List Block
  /-- The agents' moves still to come, next first (R5, R63; log entry 7). -/
  agenda : List Turn
  /-- What the host's reads have returned, oldest first (R206 to R208; log entry 8). -/
  readings : List Reading
  /-- How many free values have been used (R11; log entry 8). -/
  fresh : Nat
  deriving DecidableEq, Repr

/-- Why a step cannot go on. Neither is reached from a state that meets `Sys2Proof.Coherent`: both say
that BUF and LEN disagree with each other or with BUFCAP. -/
inductive Fault where
  /-- Raised by a read of `n` bytes at `a` that is not defined (R52), or that meets a byte with no
  value (R54). Safe: the machine stops where the spec gives no value. -/
  | undefinedRead (a n : Nat)
  /-- Raised by a write of `n` bytes at `a` that is not defined (R53). Safe, for the same reason. -/
  | undefinedWrite (a n : Nat)
  deriving DecidableEq, Repr

/-- What the model declines. -/
inductive Refusal where
  /-- Raised by an arm of `exec` whose instruction has no meaning yet; there is none. Safe. -/
  | notModelled (mnemonic : String)
  deriving DecidableEq, Repr

/-- The three outcomes of a step, at this machine's types. -/
abbrev Result := Host.Outcome State Fault Refusal

/-- After power-on (R40, R260): CMD, STATUS, ERR and LEN are 0 and no byte of BUF is valid. KEY, IV,
TOK and DKEY are unspecified in the spec and zero here (DESIGN CHOICE, log entry 1); while their
flags are 0 nothing reads them. The buffer is unbounded (DESIGN CHOICE, log entry 3), the agents
have no moves to make and the host has read nothing (log entry 7). -/
def State.reset : State where
  key := .fill 0
  iv := .fill 0
  tok := .fill 0
  dkey := .fill 0
  buf := []
  len := 0
  cmd := 0
  status := ⟨false, false, false, false, false, false⟩
  err := .ok
  params := ⟨none, none⟩
  rng := []
  agenda := []
  readings := []
  fresh := 0

end Sys2Proof.Machine
end

