-- ==== Sys2Proof/Machine/Flags.lean ====
section
/-!
DEFINITION. Machine/Flags.lean: the values of STATUS and ERR as the host reads them, and every
change an operation or a host action makes to the flags (10_state.md rules R29 to R32;
60_exceptions.md rule R230).
-/

namespace Sys2Proof.Machine

/-- A flag as a number. -/
def bit (b : Bool) : Nat := if b then 1 else 0

/-- STATUS as RDSTAT returns it: `BUSY + 2*DONE + 4*KEYV + 8*IVV + 16*TOKV + 32*DKV` (R29). -/
def statusByte (f : Status) : Byte :=
  BitVec.ofNat 8 (bit f.busy + 2 * bit f.done + 4 * bit f.keyv + 8 * bit f.ivv + 16 * bit f.tokv
    + 32 * bit f.dkv)

/-- ERR as RDERR returns it: the code in bits 3:0, bits 7:4 zero (R30, R230). -/
def errByte : Err → Byte
  | .ok => 0
  | .tooShort => 1
  | .invalidLength => 2
  | .badPaddingOrKey => 3
  | .paddingError => 4
  | .illegalCmd => 5
  | .noOperand => 6
  | .overflow => 7

/-- What ISSUE does to the flags: BUSY set, DONE cleared (R205). -/
def flagsIssued (f : Status) : Status := { f with busy := true, done := false }

/-- What completing an operation does to the flags: BUSY cleared, DONE set (R210, R240). -/
def flagsCompleted (f : Status) : Status := { f with busy := false, done := true }

/-- All flags cleared (R40). -/
def flagsCleared : Status := ⟨false, false, false, false, false, false⟩

end Sys2Proof.Machine
end

