-- ==== Sys2Proof/Machine/Ops.lean ====
section
/-!
DEFINITION. Machine/Ops.lean: the named operations over the buffer and the registers
(00_scope.md rule R10; 20_memory.md rules R52 to R54), how an operation ends, with an error or
without (46_host_actions.md rule R210; 60_exceptions.md rule R240), and the draw (42_ivgen.md
rules R141, R142).

There is no return from an error (R242), no trap, vector or saved state (R240): ending an operation
with an error is the whole of taking an exception on this hardware.
-/

namespace Sys2Proof.Machine

/-! ## The buffer's bytes -/

/-- The byte at an address, if it has a value. -/
def Memory.read : Mem → Nat → Option Byte
  | [], _ => none
  | (k, b) :: m, a => if k = a then some b else Memory.read m a

/-- Put a byte at an address, keeping the addresses rising. -/
def Memory.write : Mem → Nat → Byte → Mem
  | [], a, v => [(a, v)]
  | (k, b) :: m, a, v =>
    if a < k then (a, v) :: (k, b) :: m
    else if a = k then (a, v) :: m
    else (k, b) :: Memory.write m a v

/-- `n` bytes from an address up, lowest first, if each has a value (R52). -/
def Memory.readSeq (m : Mem) : Nat → Nat → Option (List Byte)
  | _, 0 => some []
  | a, n + 1 =>
    match Memory.read m a, Memory.readSeq m (a + 1) n with
    | some b, some bs => some (b :: bs)
    | _, _ => none

/-- Store `v[0]` at an address, `v[1]` at the next, and so on (R53). -/
def Memory.writeSeq : Mem → Nat → List Byte → Mem
  | m, _, [] => m
  | m, a, b :: bs => Memory.writeSeq (Memory.write m a b) (a + 1) bs

/-- Forget every byte from address `n` up: it has no value any more (R54). -/
def Memory.cut (m : Mem) (n : Nat) : Mem := m.filter fun c => decide (c.1 < n)

/-- The addresses are strictly rising and none is below `lo`. -/
def Memory.risingFrom : Nat → Mem → Bool
  | _, [] => true
  | lo, (k, _) :: m => decide (lo ≤ k) && Memory.risingFrom (k + 1) m

/-- The canonical form: addresses strictly rising. An unlisted address has no value, so no entry can
equal what an unlisted address reads as. -/
def Memory.wf (m : Mem) : Bool := Memory.risingFrom 0 m

/-! ## MemRead and MemWrite (R10, R52, R53) -/

/-- `MemRead(a, n)`: defined only when `a + n <= LEN` (R52). -/
def memRead (s : State) (a n : Nat) (k : List Byte → Result) : Result :=
  if a + n ≤ s.len then
    match Memory.readSeq s.buf a n with
    | some bs => k bs
    | none => .fault (.undefinedRead a n)
  else .fault (.undefinedRead a n)

/-- `MemWrite(a, |v|, v)`: defined only when `a + |v| <= BUFCAP` (R53). -/
def memWrite (s : State) (a : Nat) (v : List Byte) (k : State → Result) : Result :=
  if s.params.fits (a + v.length) then k { s with buf := Memory.writeSeq s.buf a v }
  else .fault (.undefinedWrite a v.length)

/-- `LEN <- n`; every byte from `n` up is unspecified from then on (R54). -/
def setLen (n : Nat) (s : State) : State := { s with len := n, buf := Memory.cut s.buf n }

/-- The buffer holds exactly `v`: `MemWrite(0, |v|, v); LEN <- |v|` (R26, R204). -/
def holding (v : List Byte) (s : State) : State :=
  setLen v.length { s with buf := Memory.writeSeq s.buf 0 v }

/-- `IV <- v; IVV <- 1` (R23). -/
def setIv (v : Block) (s : State) : State := { s with iv := v, status := { s.status with ivv := true } }

/-- `DKEY <- v; DKV <- 1` (R25). -/
def setDkey (v : Block) (s : State) : State :=
  { s with dkey := v, status := { s.status with dkv := true } }

/-! ## How an operation ends (R210, R240) -/

/-- The state in which an operation has ended with `e`: ERR, BUSY and DONE are written, nothing else
(R210, R240). -/
def ended (e : Err) (s : State) : State := { s with err := e, status := flagsCompleted s.status }

/-- `raise Err(NAME)` on the state at ISSUE: taking an exception on this hardware (R240). -/
def raiseErr (e : Err) (s : State) : Result := .next (ended e s)

/-- The operation succeeded: ERR is 0 and its writes stand (R210). -/
def succeed (s : State) : Result := .next (ended .ok s)

/-- Go on if a check passes, else end with its error; the first failing check decides (R211, R239). -/
def check (passes : Bool) (e : Err) (s : State) (k : Result) : Result :=
  if passes then k else raiseErr e s

/-- `draw16()`: take the RNG's oldest answer (R141). With none to take the EXEC step is not enabled:
the block stays as it is (R142). -/
def draw16 (s : State) (k : Block → State → Result) : Result :=
  match s.rng with
  | [] => .next s
  | r :: rest => k r { s with rng := rest }

end Sys2Proof.Machine
end

