-- ==== Sys2Proof/Machine/Operands.lean ====
section
/-!
DEFINITION. Machine/Operands.lean: where each operation takes its operands from and what it requires
of them before it starts (30_encoding.md rule R73; 10_state.md rule R31; 60_exceptions.md rules R231,
R232, R236, R237).
-/

namespace Sys2Proof.Machine

/-- The register operands an operation needs have been written since reset (R31, R73). -/
def hasOperands (i : Instr) (f : Status) : Bool :=
  match i with
  | .fwdec | .fwenc => f.keyv
  | .cbcdec | .cbcenc => f.keyv && f.ivv
  | .kdf => f.tokv
  | .ivgen | .xordec => true

/-- The ciphertext length for a plaintext of `n` bytes (R120, R126). -/
def cipherLength (n : Nat) : Nat := 16 * (n / 16 + 1)

/-- The container length for a plaintext of `n` bytes (R151, R153). -/
def containerLength (n : Nat) : Nat := 16 + cipherLength n

/-- A length a ciphertext can have: a non-zero multiple of 16 (R58, R232). -/
def cipherLengthOk (n : Nat) : Bool := decide (n ≠ 0) && decide (n % 16 = 0)

/-- The buffer operand, `BUF[0..LEN)` (R26). -/
def bufOperand (s : State) (k : List Byte → Result) : Result := memRead s 0 s.len k

/-- A 16-byte operand in the buffer at address `a` (R61, R152). -/
def blockOperand (s : State) (a : Nat) (k : Block → Result) : Result :=
  memRead s a 16 fun bs =>
    match Block.ofList? bs with
    | some b => k b
    | none => .fault (.undefinedRead a 16)

/-- Leave a result in the buffer: `MemWrite(0, |v|, v); LEN <- |v|`, where the write is defined (R26,
R53). -/
def bufResult (v : List Byte) (s : State) (k : State → Result) : Result :=
  if s.params.fits v.length then k (holding v s) else .fault (.undefinedWrite 0 v.length)

/-- The operation takes a draw and passes the checks that come before it (R142, R151, R210). -/
def takesDraw (i : Instr) (s : State) : Bool :=
  match i with
  | .ivgen => true
  | .fwenc => hasOperands .fwenc s.status && s.params.fits (containerLength s.len)
  | .fwdec | .cbcdec | .cbcenc | .kdf | .xordec => false

/-- The operation in flight takes a draw in its EXEC step (R141, R210). -/
def asksForDraw (s : State) : Bool :=
  s.status.busy &&
    match decode s.cmd with
    | .ok i => takesDraw i s
    | .error _ => false

/-- The operation in flight waits for the RNG: its EXEC step is not enabled (R142, R210). -/
def waitsForRng (s : State) : Bool := asksForDraw s && s.rng.isEmpty

end Sys2Proof.Machine
end

