-- ==== Sys2Proof/Machine/Engine.lean ====
section
/-!
DEFINITION. Machine/Engine.lean: the BlockCipherEngine, 41_cbc_pkcs7.md: PKCS#7 padding (R120, R121),
the CBC passes (R122, R123) and the operations CBCENC (R124) and CBCDEC (R125).
-/

namespace Sys2Proof.Machine

/-- How many padding bytes a plaintext of `n` bytes gets, 1 to 16 (R120). -/
def padCount (n : Nat) : Nat := 16 - n % 16

/-- `pad(p)` (R120). -/
def pad (p : List Byte) : List Byte :=
  p ++ List.replicate (padCount p.length) (BitVec.ofNat 8 (padCount p.length))

/-- `unpad(m)`; `none` is the PaddingError (R121). The last byte is `n`; it must be 1 to 16 and the
final `n` bytes must all equal it. -/
def unpad (m : List Byte) : Option (List Byte) :=
  match m.getLast? with
  | none => none
  | some n =>
    if 1 ≤ n.toNat ∧ n.toNat ≤ 16 then
      if (m.drop (m.length - n.toNat)).all (· == n) then some (m.take (m.length - n.toNat)) else none
    else none

/-- The 16-byte blocks of a sequence, in order of rising index (R122). -/
def toBlocks : List Byte → List Block
  | x0 :: x1 :: x2 :: x3 :: x4 :: x5 :: x6 :: x7 :: x8 :: x9 :: x10 :: x11 :: x12 :: x13 :: x14
      :: x15 :: rest =>
    ⟨⟨x0, x1, x2, x3⟩, ⟨x4, x5, x6, x7⟩, ⟨x8, x9, x10, x11⟩, ⟨x12, x13, x14, x15⟩⟩ :: toBlocks rest
  | _ => []

/-- The blocks' bytes, one after another. -/
def ofBlocks : List Block → List Byte
  | [] => []
  | b :: bs => b.bytes ++ ofBlocks bs

/-- The encryption pass over blocks; the first argument after the key is CHAIN (R36, R122). -/
def cbcEncBlocks (k : Block) : Block → List Block → List Block
  | _, [] => []
  | chain, m :: ms => aesE k (m.xor chain) :: cbcEncBlocks k (aesE k (m.xor chain)) ms

/-- The decryption pass over blocks; the first argument after the key is CHAIN (R36, R123). -/
def cbcDecBlocks (k : Block) : Block → List Block → List Block
  | _, [] => []
  | chain, c :: cs => (aesD k c).xor chain :: cbcDecBlocks k c cs

/-- `cbc_enc(k, v, m)` for `m` of whole blocks (R122). -/
def cbcEnc (k v : Block) (m : List Byte) : List Byte := ofBlocks (cbcEncBlocks k v (toBlocks m))

/-- `cbc_dec(k, v, c)` for `c` of whole blocks (R123). -/
def cbcDec (k v : Block) (c : List Byte) : List Byte := ofBlocks (cbcDecBlocks k v (toBlocks c))

/-- The document's `encryptBlock(key, iv, plaintext)`: pad, then encrypt (R124). -/
def encryptBlock (k v : Block) (p : List Byte) : List Byte := cbcEnc k v (pad p)

/-- The document's `decryptBlock(key, iv, ciphertext)` on a good length: decrypt, then unpad; `none`
is the PaddingError (R125). -/
def decryptBlock (k v : Block) (c : List Byte) : Option (List Byte) := unpad (cbcDec k v c)

/-- CBCENC (R124). -/
def execCbcenc (s : State) : Result :=
  check (hasOperands .cbcenc s.status) .noOperand s <|
  check (s.params.fits (cipherLength s.len)) .overflow s <|
  bufOperand s fun p =>
  bufResult (encryptBlock s.key s.iv p) s succeed

/-- CBCDEC (R125). -/
def execCbcdec (s : State) : Result :=
  check (hasOperands .cbcdec s.status) .noOperand s <|
  check (cipherLengthOk s.len) .invalidLength s <|
  bufOperand s fun c =>
  match decryptBlock s.key s.iv c with
  | none => raiseErr .paddingError s
  | some p => bufResult p s succeed

end Sys2Proof.Machine
end

