-- ==== Sys2Proof/Machine/Container.lean ====
section
/-!
DEFINITION. Machine/Container.lean: the FirmwareContainerCodec, 43_container.md: the container `iv ++ c`
(R150) and the operations FWENC (R151) and FWDEC (R152).
-/

namespace Sys2Proof.Machine

/-- The EncryptedContainer of a plaintext under a key and a drawn IV (R150, R151). -/
def container (k r : Block) (p : List Byte) : List Byte := r.bytes ++ encryptBlock k r p

/-- FWENC (R151). Both checks come before the draw; the plaintext is read before BUF is written. -/
def execFwenc (s : State) : Result :=
  check (hasOperands .fwenc s.status) .noOperand s <|
  check (s.params.fits (containerLength s.len)) .overflow s <|
  draw16 s fun iv s' =>
  bufOperand s' fun p =>
  bufResult (container s'.key iv p) s' fun t => succeed (setIv iv t)

/-- FWDEC (R152). -/
def execFwdec (s : State) : Result :=
  check (hasOperands .fwdec s.status) .noOperand s <|
  check (decide (16 ≤ s.len)) .tooShort s <|
  blockOperand s 0 fun iv =>
  check (cipherLengthOk (s.len - 16)) .invalidLength s <|
  memRead s 16 (s.len - 16) fun c =>
  match decryptBlock s.key iv c with
  | none => raiseErr .badPaddingOrKey s
  | some p => bufResult p s fun t => succeed (setIv iv t)

end Sys2Proof.Machine
end

