-- ==== Sys2Proof/Machine/Ivgen.lean ====
section
/-!
DEFINITION. Machine/Ivgen.lean: the IVGenerator, 42_ivgen.md: the operation IVGEN (R140).
-/

namespace Sys2Proof.Machine

/-- IVGEN (R140): the draw becomes the IV; no value is rejected (R143). -/
def execIvgen (s : State) : Result :=
  draw16 s fun r s' => succeed (setIv r s')

end Sys2Proof.Machine
end

