-- ==== Sys2Proof/Machine/Kdf.lean ====
section
/-!
DEFINITION. Machine/Kdf.lean: the KeyDeriver, 44_kdf.md: hex digits (R170), the derivation (R171) and
the operation KDF (R172). The counter is a natural number, local to one derivation (R35, R173).
-/

namespace Sys2Proof.Machine

/-- `KDF_C0`, the counter's first value (R6, R171). -/
def kdfC0 : Nat := 66

/-- `KDF_STEP`, the counter's increment (R6, R171). -/
def kdfStep : Nat := 3

/-- The ASCII code of the uppercase hexadecimal digit of a nibble (R170). -/
def hexdigit (n : BitVec 4) : Byte :=
  if n.toNat ≤ 9 then BitVec.ofNat 8 (0x30 + n.toNat) else BitVec.ofNat 8 (0x37 + n.toNat)

/-- The bytes a hex digit can be (R170, R172). -/
def isHexCode (b : Byte) : Bool :=
  (decide (0x30 ≤ b.toNat) && decide (b.toNat ≤ 0x39)) ||
    (decide (0x41 ≤ b.toNat) && decide (b.toNat ≤ 0x46))

/-- The counter's value while token byte `i` is processed (R171). -/
def kdfCounter (i : Nat) : Nat := kdfC0 + kdfStep * i

/-- Token byte `i` under its counter value (R171). -/
def kdfMask (i : Nat) (t : Byte) : Byte := t ^^^ BitVec.ofNat 8 (kdfCounter i % 256)

/-- The character of the high nibble (R57, R171). -/
def hexHigh (x : Byte) : Byte := hexdigit (x.extractLsb' 4 4)

/-- The character of the low nibble (R57, R171). -/
def hexLow (x : Byte) : Byte := hexdigit (x.extractLsb' 0 4)

/-- Two token bytes, the first at index `i`, as four characters, high nibble first (R57, R171). -/
def hexPair (i : Nat) (a b : Byte) : Quad :=
  ⟨hexHigh (kdfMask i a), hexLow (kdfMask i a), hexHigh (kdfMask (i + 1) b), hexLow (kdfMask (i + 1) b)⟩

/-- `derive(t)` (R171). -/
def derive (t : Token) : Block :=
  ⟨hexPair 0 t.q0.b0 t.q0.b1, hexPair 2 t.q0.b2 t.q0.b3, hexPair 4 t.q1.b0 t.q1.b1,
   hexPair 6 t.q1.b2 t.q1.b3⟩

/-- KDF (R172). It writes DKEY, never KEY (R25). -/
def execKdf (s : State) : Result :=
  check (hasOperands .kdf s.status) .noOperand s <|
  succeed (setDkey (derive s.tok) s)

end Sys2Proof.Machine
end

