-- ==== Sys2Proof/Machine/Xordec.lean ====
section
/-!
DEFINITION. Machine/Xordec.lean: the ResourceXorDecoder, 45_xordec.md: the keystream (R185), the decoder
(R186) and the operation XORDEC (R187). The counter is a natural number, local to one decoding (R35).
-/

namespace Sys2Proof.Machine

/-- `XOR_C0`, the counter's first value, to which it also restarts (R6, R185). -/
def xorC0 : Nat := 3

/-- `XOR_STEP`, the counter's increment (R6, R185). -/
def xorStep : Nat := 3

/-- `XOR_LIMIT`, the bound at which the counter restarts (R6, R185). -/
def xorLimit : Nat := 255

/-- The counter after one byte; the comparison sees the true sum (R185). -/
def xorAdvance (c : Nat) : Nat := if c + xorStep ≥ xorLimit then xorC0 else c + xorStep

/-- The counter after `i` bytes (R185). -/
def xorCounter : Nat → Nat
  | 0 => xorC0
  | i + 1 => xorAdvance (xorCounter i)

/-- `ks[i]`, the keystream byte at index `i` (R185). -/
def keystream (i : Nat) : Byte := BitVec.ofNat 8 (xorCounter i % 256)

/-- Decode bytes in order, the counter standing at `c` (R187). -/
def xorDecodeFrom : Nat → List Byte → List Byte
  | _, [] => []
  | c, b :: bs => (b ^^^ BitVec.ofNat 8 (c % 256)) :: xorDecodeFrom (xorAdvance c) bs

/-- `decode(b)` (R186): every decoding starts the counter at 3, whatever ran before (R190). -/
def xorDecode (bs : List Byte) : List Byte := xorDecodeFrom xorC0 bs

/-- XORDEC (R187), in place; LEN is unchanged. -/
def execXordec (s : State) : Result :=
  bufOperand s fun bs =>
  memWrite s 0 (xorDecode bs) succeed

end Sys2Proof.Machine
end

