-- ==== Sys2Proof/Machine/Dispatch.lean ====
section
/-!
DEFINITION. Machine/Dispatch.lean: one arm per operation (46_host_actions.md rule R211).
-/

namespace Sys2Proof.Machine

-- The operation runs to its end in one transition, ERR, BUSY and DONE included (R210).
def exec (i : Instr) (s : State) : Host.Outcome State Fault Refusal :=
  match i with
  | .fwdec => Sys2Proof.Machine.execFwdec s
  | .fwenc => Sys2Proof.Machine.execFwenc s
  | .cbcdec => Sys2Proof.Machine.execCbcdec s
  | .cbcenc => Sys2Proof.Machine.execCbcenc s
  | .kdf => Sys2Proof.Machine.execKdf s
  | .ivgen => Sys2Proof.Machine.execIvgen s
  | .xordec => Sys2Proof.Machine.execXordec s

end Sys2Proof.Machine
end

