-- ==== Sys2Proof/Machine/HostActions.lean ====
section
/-!
DEFINITION. Machine/HostActions.lean: the host interface, 46_host_actions.md: what each host action
does (R200 to R208), what is dropped or unspecified (R209), and the host-visible items' numbers
(10_state.md rule R33).
-/

namespace Sys2Proof.Machine

/-! ## RESET -/

/-- RESET (R200, R260): CMD, STATUS, ERR and LEN are 0, no byte of BUF is valid, and the registers'
contents are unspecified, each a fresh free value that may be the old content (R40, R262; log
entry 2). It is allowed at any time and abandons the operation in flight; the other agents are not
touched. -/
def hostReset (s : State) : State :=
  { s with
    key := Config.freeBlock s.fresh s.key
    iv := Config.freeBlock (s.fresh + 1) s.iv
    tok := Config.freeToken (s.fresh + 2) s.tok
    dkey := Config.freeBlock (s.fresh + 3) s.dkey
    buf := []
    len := 0
    cmd := 0
    status := flagsCleared
    err := .ok
    fresh := s.fresh + 4 }

/-! ## Writes: dropped while BUSY is 1 (R209) -/

/-- WKEY (R201); a `k` of another length than 16 is dropped (R209). -/
def hostWkey (k : List Byte) (s : State) : State :=
  match s.status.busy, Block.ofList? k with
  | false, some b => { s with key := b, status := { s.status with keyv := true } }
  | _, _ => s

/-- WIV (R202); a `v` of another length than 16 is dropped (R209). -/
def hostWiv (v : List Byte) (s : State) : State :=
  match s.status.busy, Block.ofList? v with
  | false, some b => setIv b s
  | _, _ => s

/-- WTOK (R203); a `t` of another length than 8 is dropped (R209). -/
def hostWtok (t : List Byte) (s : State) : State :=
  match s.status.busy, Token.ofList? t with
  | false, some b => { s with tok := b, status := { s.status with tokv := true } }
  | _, _ => s

/-- LDBUF (R204): `MemWrite(0, |d|, d); LEN <- |d|`; a `d` longer than BUFCAP is dropped whole. -/
def hostLdbuf (d : List Byte) (s : State) : State :=
  if s.status.busy then s
  else if s.params.fits d.length then holding d s
  else s

/-- `CMD <- b; ERR <- 0; DONE <- 0; BUSY <- 1`: the block is in flight with `b` (R205, R264). -/
def issued (b : Byte) (s : State) : State :=
  { s with cmd := b, err := .ok, status := flagsIssued s.status }

/-- ISSUE (R205): any byte is accepted, legal or not. -/
def hostIssue (b : Byte) (s : State) : State := if s.status.busy then s else issued b s

/-! ## Reads: they change nothing in the block (R60) -/

/-- The host has read `r`. -/
def record (r : Reading) (s : State) : State := { s with readings := s.readings ++ [r] }

/-- The host has read `r`, an unspecified value, which uses up one value of the counter (R11, R209). -/
def recordFree (r : Reading) (s : State) : State :=
  { s with readings := s.readings ++ [r], fresh := s.fresh + 1 }

/-- RDSTAT (R206), at any time. -/
def hostRdstat (s : State) : State := record (.status (statusByte s.status)) s

/-- RDERR (R206), at any time. -/
def hostRderr (s : State) : State := record (.err (errByte s.err)) s

/-- An unspecified value of LEN's type, 0 to BUFCAP (R27, R209; log entry 8). -/
def anyLen (s : State) : Nat :=
  match s.params.bufcap with
  | none => Config.freeLen s.fresh s.len
  | some c => Config.freeLen s.fresh s.len % (c + 1)

/-- An unspecified content of at most BUFCAP bytes (R26, R209; log entry 8). -/
def anyContent (s : State) : List Byte :=
  match s.params.bufcap with
  | none => Config.freeBytes s.fresh s.buf
  | some c => (Config.freeBytes s.fresh s.buf).take c

/-- RDLEN (R207); unspecified while BUSY is 1 (R209). -/
def hostRdlen (s : State) : State :=
  if s.status.busy then recordFree (.len (anyLen s)) s else record (.len s.len) s

/-- RDBUF (R207): `BUF[0..LEN)`, never a byte from LEN up; unspecified while BUSY is 1 (R209). -/
def hostRdbuf (s : State) : Result :=
  if s.status.busy then .next (recordFree (.buf (anyContent s)) s)
  else bufOperand s fun bs => .next (record (.buf bs) s)

/-- RDIV (R208); unspecified while IVV is 0 or BUSY is 1 (R31, R209). -/
def hostRdiv (s : State) : State :=
  if s.status.busy || !s.status.ivv then recordFree (.iv (Config.freeBlock s.fresh s.iv)) s
  else record (.iv s.iv) s

/-- RDDKEY (R208); unspecified while DKV is 0 or BUSY is 1 (R31, R209). -/
def hostRddkey (s : State) : State :=
  if s.status.busy || !s.status.dkv then recordFree (.dkey (Config.freeBlock s.fresh s.dkey)) s
  else record (.dkey s.dkey) s

/-- One host action (R200 to R209). -/
def hostAct (a : HostAction) (s : State) : Result :=
  match a with
  | .reset => .next (hostReset s)
  | .wkey k => .next (hostWkey k s)
  | .wiv v => .next (hostWiv v s)
  | .wtok t => .next (hostWtok t s)
  | .ldbuf d => .next (hostLdbuf d s)
  | .issue b => .next (hostIssue b s)
  | .rdstat => .next (hostRdstat s)
  | .rderr => .next (hostRderr s)
  | .rdlen => .next (hostRdlen s)
  | .rdbuf => hostRdbuf s
  | .rdiv => .next (hostRdiv s)
  | .rddkey => .next (hostRddkey s)

/-! ## The host-visible items (R33) -/

/-- The items of R33. -/
inductive HostItem where
  | cmd | status | err | len | key | iv | tok | dkey | buf
  deriving DecidableEq, Repr

/-- The identifier R33 gives an item; no rule uses it as an address. -/
def itemNumber : HostItem → Nat
  | .cmd => 0
  | .status => 1
  | .err => 2
  | .len => 3
  | .key => 4
  | .iv => 5
  | .tok => 6
  | .dkey => 7
  | .buf => 8

/-- The item an action reads for the host, if any (R33, R245). -/
def itemRead : HostAction → Option HostItem
  | .rdstat => some .status
  | .rderr => some .err
  | .rdlen => some .len
  | .rdbuf => some .buf
  | .rdiv => some .iv
  | .rddkey => some .dkey
  | .reset | .wkey _ | .wiv _ | .wtok _ | .ldbuf _ | .issue _ => none

/-- The item an action writes for the host, if any; RESET is not an access to an item (R33). -/
def itemWritten : HostAction → Option HostItem
  | .wkey _ => some .key
  | .wiv _ => some .iv
  | .wtok _ => some .tok
  | .ldbuf _ => some .buf
  | .issue _ => some .cmd
  | .reset | .rdstat | .rderr | .rdlen | .rdbuf | .rdiv | .rddkey => none

end Sys2Proof.Machine
end

