-- ==== Sys2Proof/Machine/Turns.lean ====
section
/-!
DEFINITION. Machine/Turns.lean: what one move of each agent does (00_scope.md rule R5;
46_host_actions.md rules R210 to R212, R215), which agent moves next, and the host notation's lines
and macros as moves (30_encoding.md rules R77, R78).
-/

namespace Sys2Proof.Machine

/-! ## The CORE and the RNG -/

/-- `run(CMD)` (R211): decode and dispatch; a byte that selects no operation ends with ILLEGAL_CMD
before anything else is looked at (R74, R235). -/
def runCommand (s : State) : Result :=
  match decode s.cmd with
  | .ok i => exec i s
  | .error _ => raiseErr .illegalCmd s

/-- EXEC (R210): enabled only when BUSY is 1; the idle block does nothing (R261). -/
def coreTurn (s : State) : Result := if s.status.busy then runCommand s else .next s

/-- The RNG answers the request of the EXEC step to come with `r`, before what it has given earlier; where
that step asks for no draw nobody is answered (R5, R141; log entry 5). -/
def answerWith (r : Block) (s : State) : State :=
  { s with rng := if asksForDraw s then r :: s.rng else s.rng }

/-- EXEC taking the draw named, if it takes one (R77, R210). -/
def coreDrawTurn (r : Block) (s : State) : Result := coreTurn (answerWith r s)

/-- The RNG makes sixteen bytes available (R215). It touches no state of the block. -/
def rngTurn (r : Block) (s : State) : State := { s with rng := s.rng ++ [r] }

/-- The RNG answers with bytes nobody has named, a free value (R141; log entry 6). -/
def rngAnswers (s : State) : State :=
  { s with rng := s.rng ++ [Config.freeDraw s.fresh], fresh := s.fresh + 1 }

/-- The move fairness owes (R276): the RNG answers if the operation in flight waits for it, else the
CORE moves (log entry 6). -/
def fairTurn (s : State) : Result := if waitsForRng s then .next (rngAnswers s) else coreTurn s

/-! ## Which agent moves next -/

/-- One move: the agenda's next one, taken off it before it is made. A `wait` stays on the agenda
until the host's poll finds DONE at 1, the block moving meanwhile (R212; log entry 9). With no move
named the block and the RNG go on fairly; an idle block stays as it is (R214, R261, R276). -/
def takeTurn (s : State) : Result :=
  match s.agenda with
  | [] => fairTurn s
  | .host a :: rest => hostAct a { s with agenda := rest }
  | .wait :: rest =>
    if s.status.done then .next (hostRdstat { s with agenda := rest }) else fairTurn s
  | .core :: rest => coreTurn { s with agenda := rest }
  | .coreDraw r :: rest => coreDrawTurn r { s with agenda := rest }
  | .rng r :: rest => .next (rngTurn r { s with agenda := rest })

/-- The state with command byte `b` in flight and the CORE to move next (R264 `InFlight(b)`); if the
operation takes a draw and the RNG has nothing to give, the RNG has answered (R142). -/
def withCommand (b : Byte) (s : State) : State :=
  let t := { issued b s with agenda := .core :: s.agenda }
  if waitsForRng t then rngAnswers t else t

/-! ## The host notation (R77) and its macros (R78) -/

/-- The moves of one line (R77). -/
def lineTurns : Line → List Turn
  | .act a => [.host a]
  | .issueOp i => [.host (.issue (encode i))]
  | .waitDone => [.wait]
  | .exec => [.core]
  | .execDraw r => [.coreDraw r]

/-- The moves of a host program, line by line. -/
def programTurns : List Line → List Turn
  | [] => []
  | l :: ls => lineTurns l ++ programTurns ls

/-- The lines a macro stands for (R78). -/
def expandMacro : Macro → List Line
  | .encrypt p k => [.act (.wkey k), .act (.ldbuf p), .issueOp .fwenc, .waitDone, .act .rderr, .act .rdbuf]
  | .decrypt c k => [.act (.wkey k), .act (.ldbuf c), .issueOp .fwdec, .waitDone, .act .rderr, .act .rdbuf]
  | .encryptBlock k v p =>
    [.act (.wkey k), .act (.wiv v), .act (.ldbuf p), .issueOp .cbcenc, .waitDone, .act .rderr, .act .rdbuf]
  | .decryptBlock k v c =>
    [.act (.wkey k), .act (.wiv v), .act (.ldbuf c), .issueOp .cbcdec, .waitDone, .act .rderr, .act .rdbuf]
  | .generate => [.issueOp .ivgen, .waitDone, .act .rdiv]
  | .derive t => [.act (.wtok t), .issueOp .kdf, .waitDone, .act .rddkey]
  | .decode b => [.act (.ldbuf b), .issueOp .xordec, .waitDone, .act .rdbuf]

/-- Put a host program on the agenda, after the moves already there (log entry 7). -/
def withProgram (ls : List Line) (s : State) : State :=
  { s with agenda := s.agenda ++ programTurns ls }

end Sys2Proof.Machine
end

