-- ==== Sys2Proof/Machine/Step.lean ====
section
/-!
DEFINITION. Machine/Step.lean: one step of the machine, one move of one agent (00_scope.md rule R5).
-/

namespace Sys2Proof.Machine

/-- One step: the next agent's move (`Sys2Proof.Machine.takeTurn`). -/
def step (s : State) : Host.Outcome State Fault Refusal := takeTurn s

/-- The state whose next step runs the command byte `w`. The block fetches nothing (R34, R66): its
next instruction is CMD with BUSY at 1, so this stands for the host's ISSUE (log entry 7). -/
def State.withFetchWord (s : State) (_nbits w : Nat) : State := withCommand (BitVec.ofNat 8 w) s

end Sys2Proof.Machine
end

