-- ==== Sys2Proof/Safety.lean ====
section
/-!
DEFINITION. Safety.lean: what a safe run is, in the terms the statements use.
-/

namespace Sys2Proof

open Machine

/-- The block's only states (R27, R32, R54, R264; R172 for the last clause): the parameters are
legal; BUF holds a value at exactly the addresses below LEN, and LEN is within BUFCAP; BUSY and DONE
are not both 1; ERR is 0 until an operation completes; CMD is 0 until one is issued; ILLEGAL_CMD is the
result of exactly the illegal commands; DKEY is hex text once KDF has written it. -/
abbrev Coherent (s : State) : Prop :=
  s.params.wf = true ∧
  s.buf.map Prod.fst = List.range s.len ∧
  s.params.fits s.len = true ∧
  (s.status.busy && s.status.done) = false ∧
  (s.status.done = false → s.err = .ok) ∧
  (s.status.busy = false → s.status.done = false → s.cmd = 0) ∧
  (s.status.done = true → (s.err = .illegalCmd ↔ legalCommand s.cmd = false)) ∧
  (s.status.dkv = true → s.dkey.bytes.all isHexCode = true)

/-- Operation `i` is in flight: BUSY is 1 and CMD selects it, in one of the block's states (R264). -/
abbrev InFlight (i : Instr) (s : State) : Prop :=
  Coherent s ∧ s.status.busy = true ∧ decode s.cmd = .ok i

/-- An operation has completed in `s`, and without an error (R32, R230, R271). -/
abbrev Succeeded (s : State) : Prop :=
  s.status.busy = false ∧ s.status.done = true ∧ s.err = .ok

/-- The byte sequence the buffer holds, `BUF[0..LEN)`, if every byte of it has a value (R26, R52). -/
def content (s : State) : Option (List Byte) := Memory.readSeq s.buf 0 s.len

/-- The state with the contents of the registers no flag vouches for blotted out: what the block
can be seen to hold (R31). -/
def vouched (s : State) : State :=
  { s with
    key := if s.status.keyv then s.key else .fill 0
    iv := if s.status.ivv then s.iv else .fill 0
    tok := if s.status.tokv then s.tok else .fill 0
    dkey := if s.status.dkv then s.dkey else .fill 0 }

/-- Two outcomes look the same through `f`: both are next states with equal images, or both stop for
the same reason. -/
def SameOutcome (f : State → State) : Result → Result → Prop
  | .next t, .next u => f t = f u
  | .fault r, .fault q => r = q
  | .refused r, .refused q => r = q
  | _, _ => False

end Sys2Proof
end

