-- ==== Sys2Proof/Certificates/Slice0/Obligations.lean ====
section
/-!
DEFINITION. Certificates/Slice0/Obligations.lean: the statements for the provers. Each docstring names the rule of spec/ it
formalises, or the log entry where it rests on a choice of the model's.
-/

open Sys2Proof Sys2Proof.Machine

/-! ## Encoding, decoding, dispatch -/

/-- R71: the seven command bytes, and no other byte, select an operation. -/
def Obligations.SevenBytesSelectTheOperations : Prop :=
  decode 0x00 = .ok .fwdec ∧ decode 0x01 = .ok .fwenc ∧ decode 0x02 = .ok .cbcdec ∧
  decode 0x03 = .ok .cbcenc ∧ decode 0x04 = .ok .kdf ∧ decode 0x05 = .ok .ivgen ∧
  decode 0x06 = .ok .xordec ∧
  ∀ b : Byte, 7 ≤ b.toNat → ∃ e, decode b = .error e

/-- R70, R71: decoding undoes encoding for every operation, and encoding undoes decoding for every
byte that selects one. -/
def Obligations.DecodeAndEncodeAgree : Prop :=
  (∀ i : Instr, i.wf = true → decode (encode i) = .ok i) ∧
  ∀ (b : Byte) (i : Instr), decode b = .ok i → encode i = b

/-- R74: an illegal byte is accepted and stored by ISSUE; the CORE's next move ends with ILLEGAL_CMD
and changes nothing else; there are 249 such bytes. -/
def Obligations.IllegalCommandsAreStoredThenAnswered : Prop :=
  (∀ (s : State) (b : Byte) (rest : List Turn),
    s.agenda = .host (.issue b) :: .core :: rest → s.status.busy = false →
    (b.extractLsb' 3 5 ≠ 0 ∨ b.extractLsb' 0 3 = 7) →
    ∃ t, step s = .next t ∧ t.cmd = b ∧ t.status.busy = true ∧
      step t = .next { t with agenda := rest, err := .illegalCmd,
                              status := { t.status with busy := false, done := true } }) ∧
  ((List.range 256).filter fun n => !legalCommand (BitVec.ofNat 8 n)).length = 249 ∧
  ∀ b : Byte, legalCommand b = false ↔ (b.extractLsb' 3 5 ≠ 0 ∨ b.extractLsb' 0 3 = 7)

/-- R210, R211: when the CORE moves with BUSY = 1 and CMD selects `i`, the step is `exec i`: on a
`core` move of the agenda (taken off it first), on a move that names the draw (the RNG having answered
with it if one is taken), and with nothing named or the host waiting, unless the operation waits for
the RNG (the model's order of moves, log entries 5, 6, 7 and 9). -/
def Obligations.StepRunsTheDecodedInstruction : Prop :=
  ∀ (s : State) (i : Instr), s.status.busy = true → decode s.cmd = .ok i →
    (∀ rest, s.agenda = .core :: rest → step s = exec i { s with agenda := rest }) ∧
    (∀ r rest, s.agenda = .coreDraw r :: rest → takesDraw i s = true →
      step s = exec i { s with agenda := rest, rng := r :: s.rng }) ∧
    (∀ r rest, s.agenda = .coreDraw r :: rest → takesDraw i s = false →
      step s = exec i { s with agenda := rest }) ∧
    (s.agenda = [] → waitsForRng s = false → step s = exec i s) ∧
    (∀ rest, s.agenda = .wait :: rest → s.status.done = false → waitsForRng s = false →
      step s = exec i s)

/-- 30_encoding.md R77, `exec draw=<hex32>`: the EXEC takes the draw its line names, whatever the RNG has
given before: an IVGEN, and an FWENC whose checks pass, leaves exactly that draw in IV. That what the RNG
had given before stays untaken, by an operation that takes no draw too, is the model's choice (log
entry 5). -/
def Obligations.ExecTakesTheDrawItsLineNames : Prop :=
  (∀ r : Block, lineTurns (.execDraw r) = [.coreDraw r]) ∧
  ∀ (i : Instr) (s : State) (r : Block) (rest : List Turn), InFlight i s → s.agenda = .coreDraw r :: rest →
    ∃ t, step s = .next t ∧ t.agenda = rest ∧ t.rng = s.rng ∧ t.status.busy = false ∧ t.status.done = true ∧
      (i = .ivgen → t.err = .ok ∧ t.iv = r) ∧
      (i = .fwenc → s.status.keyv = true → s.params.fits (16 + 16 * (s.len / 16 + 1)) = true →
        t.err = .ok ∧ t.iv = r ∧ ∃ c, content t = some (r.bytes ++ c))

/-! ## What each operation does -/

/-- R172: KDF needs TOKV, writes DKEY and DKV and nothing else; its corner case and example. -/
def Obligations.KdfWritesTheDerivedKey : Prop :=
  encode .kdf = 0x04 ∧
  (∀ s : State, s.status.tokv = false →
    exec .kdf s = .next { s with err := .noOperand,
                                 status := { s.status with busy := false, done := true } }) ∧
  (∀ s : State, s.status.tokv = true →
    exec .kdf s = .next { s with dkey := derive s.tok, err := .ok,
                                 status := { s.status with busy := false, done := true, dkv := true } }) ∧
  derive ⟨⟨0x42, 0x45, 0x48, 0x4b⟩, ⟨0x4e, 0x51, 0x54, 0x57⟩⟩ = Block.fill 0x30 ∧
  (∀ t : Token, ∀ b ∈ (derive t).bytes, b ∈ ([0x30, 0x31, 0x32, 0x33, 0x34, 0x35, 0x36, 0x37, 0x38, 0x39,
    0x41, 0x42, 0x43, 0x44, 0x45, 0x46] : List Byte)) ∧
  (derive (Token.fill 0)).bytes =
    [0x34, 0x32, 0x34, 0x35, 0x34, 0x38, 0x34, 0x42, 0x34, 0x45, 0x35, 0x31, 0x35, 0x34, 0x35, 0x37]

/-- R170, R171: output bytes `2i` and `2i+1` are the hex digits, high nibble first, of token byte `i`
under the counter, which starts at 66 and grows by 3. -/
def Obligations.DeriveIsHexOfTheMaskedToken : Prop :=
  (∀ n : BitVec 4, (hexdigit n).toNat = if n.toNat ≤ 9 then 0x30 + n.toNat else 0x37 + n.toNat) ∧
  ∀ (t : Token) (i : Nat), i < 8 → ∃ b x : Byte,
    t.bytes[i]? = some b ∧ x = b ^^^ BitVec.ofNat 8 ((66 + 3 * i) % 256) ∧
    (derive t).bytes[2 * i]? = some (hexdigit (x.extractLsb' 4 4)) ∧
    (derive t).bytes[2 * i + 1]? = some (hexdigit (x.extractLsb' 0 4))

/-- 44_kdf.md R174: `derive` is injective. -/
def Obligations.DeriveIsInjective : Prop := ∀ t u : Token, derive t = derive u → t = u

/-- R140: with a draw to take, IVGEN writes it to IV, sets IVV and always succeeds, whatever the
sixteen bytes are; followed by CBCENC it is FWENC without the prepended IV. -/
def Obligations.IvgenWritesTheDraw : Prop :=
  encode .ivgen = 0x05 ∧
  (∀ (s : State) (r : Block) (rest : List Block), s.rng = r :: rest →
    exec .ivgen s = .next { s with iv := r, rng := rest, err := .ok,
                                   status := { s.status with busy := false, done := true, ivv := true } }) ∧
  ∀ (s : State) (r : Block) (rest : List Block) (p : List Byte), s.rng = r :: rest → content s = some p →
    s.status.keyv = true → s.params.fits (16 + 16 * (s.len / 16 + 1)) = true →
    ∃ u t v c, exec .ivgen s = .next u ∧ exec .cbcenc u = .next t ∧ exec .fwenc s = .next v ∧
      content t = some c ∧ content v = some (r.bytes ++ c) ∧ v.iv = t.iv ∧ v.rng = t.rng

/-- 41_cbc_pkcs7.md R124: CBCENC with both operands and room replaces the buffer by the CBC encryption
of the padded plaintext; no byte from the new LEN up has a value; nothing else changes. -/
def Obligations.CbcencReplacesTheBuffer : Prop :=
  ∀ (s : State) (p : List Byte), content s = some p → s.status.keyv = true → s.status.ivv = true →
    s.params.fits (16 * (s.len / 16 + 1)) = true →
    ∃ t, exec .cbcenc s = .next t ∧
      content t = some (cbcEnc s.key s.iv (pad p)) ∧ t.len = 16 * (s.len / 16 + 1) ∧
      (∀ a, t.len ≤ a → Memory.read t.buf a = none) ∧
      t = { s with buf := t.buf, len := t.len, err := .ok,
                   status := { s.status with busy := false, done := true } }

/-- 41_cbc_pkcs7.md R125: CBCDEC with both operands, a good length and valid padding replaces the buffer
by the plaintext, 1 to 16 bytes shorter; nothing else changes. -/
def Obligations.CbcdecReplacesTheBuffer : Prop :=
  ∀ (s : State) (c p : List Byte), content s = some c → s.status.keyv = true → s.status.ivv = true →
    s.len ≠ 0 → s.len % 16 = 0 → s.params.fits s.len = true →
    unpad (cbcDec s.key s.iv c) = some p →
    ∃ t, exec .cbcdec s = .next t ∧
      content t = some p ∧ t.len = p.length ∧ t.len + 1 ≤ s.len ∧ s.len ≤ t.len + 16 ∧
      (∀ a, t.len ≤ a → Memory.read t.buf a = none) ∧
      t = { s with buf := t.buf, len := t.len, err := .ok,
                   status := { s.status with busy := false, done := true } }

/-- 43_container.md R151: FWENC with a key, room and a draw replaces the buffer by the draw followed by
the encryption under it, and leaves the draw in IV; nothing else changes. -/
def Obligations.FwencReplacesTheBuffer : Prop :=
  ∀ (s : State) (p : List Byte) (r : Block) (rest : List Block), content s = some p →
    s.status.keyv = true → s.params.fits (16 + 16 * (s.len / 16 + 1)) = true → s.rng = r :: rest →
    ∃ t, exec .fwenc s = .next t ∧
      content t = some (r.bytes ++ cbcEnc s.key r (pad p)) ∧ t.len = 16 + 16 * (s.len / 16 + 1) ∧
      (∀ a, t.len ≤ a → Memory.read t.buf a = none) ∧
      t = { s with buf := t.buf, len := t.len, iv := r, rng := rest, err := .ok,
                   status := { s.status with busy := false, done := true, ivv := true } }

/-- 43_container.md R152: FWDEC with a key, a good length and valid padding replaces the buffer by the
plaintext and leaves the container's first 16 bytes in IV; nothing else changes. -/
def Obligations.FwdecReplacesTheBuffer : Prop :=
  ∀ (s : State) (v : Block) (c p : List Byte), content s = some (v.bytes ++ c) → s.status.keyv = true →
    c.length ≠ 0 → c.length % 16 = 0 → s.params.fits s.len = true →
    unpad (cbcDec s.key v c) = some p →
    ∃ t, exec .fwdec s = .next t ∧
      content t = some p ∧ t.len = p.length ∧ t.len + 17 ≤ s.len ∧ s.len ≤ t.len + 32 ∧
      (∀ a, t.len ≤ a → Memory.read t.buf a = none) ∧
      t = { s with buf := t.buf, len := t.len, iv := v, err := .ok,
                   status := { s.status with busy := false, done := true, ivv := true } }

/-- 45_xordec.md R187: XORDEC always succeeds; the byte at each index below LEN is xored with the
keystream byte of that index, and every other byte, LEN included, stays. -/
def Obligations.XordecMasksTheBufferInPlace : Prop :=
  ∀ (s : State) (b : List Byte), content s = some b → s.params.fits s.len = true →
    ∃ t, exec .xordec s = .next t ∧ content t = some (xorDecode b) ∧
      (∀ a, a < s.len → Memory.read t.buf a = (Memory.read s.buf a).map (· ^^^ keystream a)) ∧
      (∀ a, s.len ≤ a → Memory.read t.buf a = Memory.read s.buf a) ∧
      t = { s with buf := t.buf, err := .ok, status := { s.status with busy := false, done := true } }

/-! ## Frames -/

/-- 10_state.md R42, 30_encoding.md R73: KDF and IVGEN, whatever they answer, leave every byte of the
buffer, LEN, KEY, TOK, CMD and the other operation's registers and flags alone. -/
def Obligations.RegisterOperationsLeaveTheRestAlone : Prop :=
  ∀ (i : Instr) (s t : State), i = .kdf ∨ i = .ivgen → exec i s = .next t →
    (∀ a, Memory.read t.buf a = Memory.read s.buf a) ∧ t.len = s.len ∧ t.key = s.key ∧ t.tok = s.tok ∧
    t.cmd = s.cmd ∧ t.status.keyv = s.status.keyv ∧ t.status.tokv = s.status.tokv ∧
    t.params = s.params ∧ t.agenda = s.agenda ∧ t.readings = s.readings ∧ t.fresh = s.fresh ∧
    (i = .kdf → t.iv = s.iv ∧ t.status.ivv = s.status.ivv ∧ t.rng = s.rng) ∧
    (i = .ivgen → t.dkey = s.dkey ∧ t.status.dkv = s.status.dkv)

/-- 10_state.md R42, 20_memory.md R54: the five buffer operations, whatever they answer, store at
address 0 as many bytes as the new LEN; a byte outside the old and the new content reads as before,
and a byte the new content no longer covers has no value. KEY, TOK, DKEY, CMD and their flags stay; IV
and the draws stay but for the container operations. -/
def Obligations.BufferOperationsLeaveTheRestAlone : Prop :=
  ∀ (i : Instr) (s t : State),
    i = .cbcenc ∨ i = .cbcdec ∨ i = .fwenc ∨ i = .fwdec ∨ i = .xordec → Coherent s → exec i s = .next t →
    (∀ a, s.len ≤ a → t.len ≤ a → Memory.read t.buf a = Memory.read s.buf a) ∧
    (∀ a, t.len ≤ a → Memory.read t.buf a = none) ∧
    (t.err ≠ .ok → t.buf = s.buf ∧ t.len = s.len) ∧
    t.key = s.key ∧ t.tok = s.tok ∧ t.dkey = s.dkey ∧ t.cmd = s.cmd ∧
    t.status.keyv = s.status.keyv ∧ t.status.tokv = s.status.tokv ∧ t.status.dkv = s.status.dkv ∧
    t.params = s.params ∧ t.agenda = s.agenda ∧ t.readings = s.readings ∧ t.fresh = s.fresh ∧
    (i = .xordec → t.len = s.len) ∧
    (i = .cbcenc ∨ i = .cbcdec ∨ i = .xordec →
      t.iv = s.iv ∧ t.status.ivv = s.status.ivv ∧ t.rng = s.rng) ∧
    (i = .fwdec → t.rng = s.rng)

/-! ## The algorithms -/

/-- R103: `D(k, .)` and `E(k, .)` undo each other for every key and block. -/
def Obligations.BlockCipherIsInvertible : Prop :=
  ∀ k x : Block, aesD k (aesE k x) = x ∧ aesE k (aesD k x) = x

/-- R92, R93: for each of the 256 bytes `a`, the S-box entry is the affine image of the multiplicative
inverse of `a` (0 for 0) in GF(2^8), whose product is the xor of the doublings of `a` at the bits set,
a doubling reducing by 0x11B (R91); and the inverse table is the inverse permutation. -/
def Obligations.SboxIsTheAffineImageOfTheInverse : Prop :=
  (∀ a : Byte, (xtime a).toNat = if a.toNat < 128 then 2 * a.toNat else (2 * a.toNat) ^^^ 0x11B) ∧
  (∀ a b : Byte, gfMul a b =
    (((List.range 8).filter fun i => b.getLsbD i).map fun i => xtime^[i] a).foldl (· ^^^ ·) 0) ∧
  (∀ a : Byte, ∃ b : Byte, (a = 0 → b = 0) ∧ (a ≠ 0 → gfMul a b = 1) ∧
    sbox a = b ^^^ b.rotateLeft 1 ^^^ b.rotateLeft 2 ^^^ b.rotateLeft 3 ^^^ b.rotateLeft 4 ^^^ 0x63) ∧
  (∀ a : Byte, invSbox (sbox a) = a ∧ sbox (invSbox a) = a) ∧
  sbox 0x00 = 0x63 ∧ sbox 0x53 = 0xED ∧ sbox 0xFF = 0x16 ∧ invSbox 0x63 = 0x00 ∧ invSbox 0xED = 0x53

/-- R94 to R98: the round transformations, byte by byte of the 16-byte form of the state; the products
are those of GF(2^8). -/
def Obligations.RoundTransformationsByBytes : Prop :=
  (∀ s : Block, (subBytes s).bytes = s.bytes.map sbox ∧ (invSubBytes s).bytes = s.bytes.map invSbox) ∧
  (∀ (s : Block) (r c : Nat), r < 4 → c < 4 →
    (shiftRows s).bytes[r + 4 * c]? = s.bytes[r + 4 * ((c + r) % 4)]? ∧
    (invShiftRows s).bytes[r + 4 * c]? = s.bytes[r + 4 * ((c + 4 - r) % 4)]?) ∧
  (∀ s : Block, mixColumns s = ⟨mixColumn s.c0, mixColumn s.c1, mixColumn s.c2, mixColumn s.c3⟩ ∧
    invMixColumns s = ⟨invMixColumn s.c0, invMixColumn s.c1, invMixColumn s.c2, invMixColumn s.c3⟩) ∧
  (∀ a0 a1 a2 a3 : Byte, mixColumn ⟨a0, a1, a2, a3⟩ =
    ⟨gfMul a0 2 ^^^ gfMul a1 3 ^^^ a2 ^^^ a3, a0 ^^^ gfMul a1 2 ^^^ gfMul a2 3 ^^^ a3,
     a0 ^^^ a1 ^^^ gfMul a2 2 ^^^ gfMul a3 3, gfMul a0 3 ^^^ a1 ^^^ a2 ^^^ gfMul a3 2⟩) ∧
  (∀ a0 a1 a2 a3 : Byte, invMixColumn ⟨a0, a1, a2, a3⟩ =
    ⟨gfMul a0 14 ^^^ gfMul a1 11 ^^^ gfMul a2 13 ^^^ gfMul a3 9,
     gfMul a0 9 ^^^ gfMul a1 14 ^^^ gfMul a2 11 ^^^ gfMul a3 13,
     gfMul a0 13 ^^^ gfMul a1 9 ^^^ gfMul a2 14 ^^^ gfMul a3 11,
     gfMul a0 11 ^^^ gfMul a1 13 ^^^ gfMul a2 9 ^^^ gfMul a3 14⟩) ∧
  (∀ s : Block, invMixColumns (mixColumns s) = s) ∧
  (∀ s rk : Block, (addRoundKey s rk).bytes = List.zipWith (· ^^^ ·) s.bytes rk.bytes ∧
    addRoundKey (addRoundKey s rk) rk = s)

/-- R99, R100: the eleven round keys are the 44 words of the key expansion, four to a key. -/
def Obligations.RoundKeysAreTheKeyExpansion : Prop :=
  ∀ k : Block, ∃ w : List Quad, w.length = 44 ∧
    w[0]? = some k.c0 ∧ w[1]? = some k.c1 ∧ w[2]? = some k.c2 ∧ w[3]? = some k.c3 ∧
    (∀ i, 4 ≤ i → i < 44 → ∃ p q t : Quad, w[i - 1]? = some p ∧ w[i - 4]? = some q ∧ w[i]? = some (q.xor t) ∧
      if i % 4 = 0 then
        ∃ rc : Byte, ([0x01, 0x02, 0x04, 0x08, 0x10, 0x20, 0x40, 0x80, 0x1B, 0x36] : List Byte)[i / 4 - 1]? = some rc ∧
          rc = xtime^[i / 4 - 1] 0x01 ∧ t = ⟨sbox p.b1 ^^^ rc, sbox p.b2, sbox p.b3, sbox p.b0⟩
      else t = p) ∧
    (roundKeys k).length = 10 ∧
    ∀ r, r ≤ 10 → ∃ rk : Block, (k :: roundKeys k)[r]? = some rk ∧ w[4 * r]? = some rk.c0 ∧
      w[4 * r + 1]? = some rk.c1 ∧ w[4 * r + 2]? = some rk.c2 ∧ w[4 * r + 3]? = some rk.c3

/-- R101, R102: both ciphers round by round, under the round keys `rk[0]` to `rk[10]`; `s[0]` is the state
after the first AddRoundKey. -/
def Obligations.CiphersFollowTheirRounds : Prop :=
  ∀ k x : Block, ∃ rk : Nat → Block, (∀ r, r ≤ 10 → (k :: roundKeys k)[r]? = some (rk r)) ∧
    (∃ s : Nat → Block, s 0 = addRoundKey x (rk 0) ∧
      (∀ r, 1 ≤ r → r ≤ 9 → s r = addRoundKey (mixColumns (shiftRows (subBytes (s (r - 1))))) (rk r)) ∧
      aesE k x = addRoundKey (shiftRows (subBytes (s 9))) (rk 10)) ∧
    ∃ s : Nat → Block, s 10 = addRoundKey x (rk 10) ∧
      (∀ r, 1 ≤ r → r ≤ 9 → s r = invMixColumns (addRoundKey (invSubBytes (invShiftRows (s (r + 1)))) (rk r))) ∧
      aesD k x = addRoundKey (invSubBytes (invShiftRows (s 1))) (rk 0)

/-- R120: padding is `n` bytes of value `n`, 1 to 16 of them, up to the next multiple of 16. -/
def Obligations.PadReachesTheNextBlock : Prop :=
  (∀ p : List Byte, ∃ n, 1 ≤ n ∧ n ≤ 16 ∧ n = 16 - p.length % 16 ∧
    pad p = p ++ List.replicate n (BitVec.ofNat 8 n) ∧ (pad p).length = 16 * (p.length / 16 + 1) ∧
    p.length < (pad p).length) ∧
  pad [] = List.replicate 16 0x10 ∧
  pad [0x41] = 0x41 :: List.replicate 15 0x0f ∧
  (∀ p : List Byte, p.length = 16 → pad p = p ++ List.replicate 16 0x10) ∧
  (∀ p : List Byte, p.length = 15 → pad p = p ++ [0x01])

/-- R121: on a positive multiple of 16 bytes, `unpad` accepts exactly what ends in `n` bytes of value
`n` with `1 <= n <= 16`, whatever stands before them; and it undoes `pad`. -/
def Obligations.UnpadAcceptsExactlyValidPadding : Prop :=
  (∀ m p : List Byte, m ≠ [] → m.length % 16 = 0 →
    (unpad m = some p ↔ ∃ n, 1 ≤ n ∧ n ≤ 16 ∧ m = p ++ List.replicate n (BitVec.ofNat 8 n))) ∧
  ∀ p : List Byte, unpad (pad p) = some p

/-- R122, R123: the CBC passes block by block, on whole blocks: each block is xored with the previous
ciphertext block, or the IV for the first, before encryption; the reverse on decryption; the
lengths stay, and decryption undoes encryption. -/
def Obligations.CbcPassesChainTheBlocks : Prop :=
  ∀ (k v : Block) (m : List Byte), m.length % 16 = 0 →
    (cbcEnc k v m).length = m.length ∧ (cbcDec k v m).length = m.length ∧
    (∀ j b, (toBlocks m)[j]? = some b → b.bytes = (m.drop (16 * j)).take 16) ∧
    (∀ j, j < m.length / 16 → ∃ b chain, (toBlocks m)[j]? = some b ∧
      (if j = 0 then chain = v else (toBlocks (cbcEnc k v m))[j - 1]? = some chain) ∧
      (toBlocks (cbcEnc k v m))[j]? = some (aesE k (b.xor chain))) ∧
    (∀ j, j < m.length / 16 → ∃ b chain, (toBlocks m)[j]? = some b ∧
      (if j = 0 then chain = v else (toBlocks m)[j - 1]? = some chain) ∧
      (toBlocks (cbcDec k v m))[j]? = some ((aesD k b).xor chain)) ∧
    cbcDec k v (cbcEnc k v m) = m

/-- R186: each output byte is its input byte xored with the keystream byte of its index. -/
def Obligations.XorDecodeMasksByteByByte : Prop :=
  ∀ b : List Byte, (xorDecode b).length = b.length ∧
    ∀ i, (xorDecode b)[i]? = b[i]?.map (· ^^^ keystream i)

/-- R188: the keystream is `3 * ((i mod 84) + 1)`: period 84, its values the multiples of 3 from 3 to
252, never 0 or 255; the counter never exceeds 252 and so is never cut by `mod 256`. -/
def Obligations.KeystreamHasPeriod84 : Prop :=
  (∀ i, xorCounter i = 3 * (i % 84 + 1)) ∧
  (∀ i, (keystream i).toNat = xorCounter i ∧ keystream (i + 84) = keystream i ∧
    xorCounter i ≤ 252 ∧ xorCounter i + 3 ≤ 255 ∧ keystream i ≠ 0 ∧ keystream i ≠ 255) ∧
  ∀ n, 1 ≤ n → n ≤ 84 → ∃ i, i < 84 ∧ (keystream i).toNat = 3 * n

/-- 45_xordec.md R190: decoding in two parts is decoding the whole where the split is at a multiple of
84. -/
def Obligations.XorDecodeSplitsAtThePeriod : Prop :=
  ∀ a b : List Byte, a.length % 84 = 0 → xorDecode (a ++ b) = xorDecode a ++ xorDecode b

/-! ## Laws of the operations -/

/-- R126: the length after a successful CBCENC. -/
def Obligations.CbcencLengthLaw : Prop :=
  ∀ s t : State, InFlight .cbcenc s → exec .cbcenc s = .next t → Succeeded t →
    t.len = 16 * (s.len / 16 + 1) ∧ t.len = 16 * ((s.len + 1 + 15) / 16) ∧ 0 < t.len ∧ t.len % 16 = 0

/-- R153: the length after a successful FWENC, at least 32. -/
def Obligations.FwencLengthLaw : Prop :=
  ∀ s t : State, InFlight .fwenc s → exec .fwenc s = .next t → Succeeded t →
    t.len = 16 + 16 * ((s.len + 1 + 15) / 16) ∧ t.len = 16 + 16 * (s.len / 16 + 1) ∧ 32 ≤ t.len

/-- R127: the engine's round trip: `unpad` after `cbc_dec` undoes `cbc_enc` after `pad`; and CBCENC
followed at once by CBCDEC restores BUF and LEN and ends with ERR = 0. -/
def Obligations.CbcdecUndoesCbcenc : Prop :=
  (∀ (k v : Block) (p : List Byte), unpad (cbcDec k v (cbcEnc k v (pad p))) = some p) ∧
  ∀ s t : State, InFlight .cbcenc s → exec .cbcenc s = .next t → Succeeded t →
    ∃ u, exec .cbcdec (issued (encode .cbcdec) t) = .next u ∧ Succeeded u ∧ u.buf = s.buf ∧ u.len = s.len

/-- R154: the container's round trip: for every key, content and draw, a successful FWENC followed at
once by FWDEC ends with ERR = 0 and BUF and LEN as before the FWENC. -/
def Obligations.FwdecUndoesFwenc : Prop :=
  ∀ s t : State, InFlight .fwenc s → exec .fwenc s = .next t → Succeeded t →
    ∃ u, exec .fwdec (issued (encode .fwdec) t) = .next u ∧ Succeeded u ∧ u.buf = s.buf ∧ u.len = s.len

/-- 43_container.md R155: two containers made from the same plaintext and key are equal exactly when
their draws are. -/
def Obligations.ContainersAreEqualIffTheDrawsAre : Prop :=
  ∀ (s s' t t' : State) (r r' : Block) (rest rest' : List Block),
    InFlight .fwenc s → InFlight .fwenc s' → s.key = s'.key → content s = content s' →
    s.rng = r :: rest → s'.rng = r' :: rest' →
    exec .fwenc s = .next t → exec .fwenc s' = .next t' → Succeeded t → Succeeded t' →
    (content t = content t' ↔ r = r')

/-- R189: two XORDEC in a row both complete, without an error, and leave BUF and LEN as they were. -/
def Obligations.XordecIsAnInvolution : Prop :=
  (∀ b : List Byte, xorDecode (xorDecode b) = b) ∧
  ∀ s : State, InFlight .xordec s →
    ∃ t u, exec .xordec s = .next t ∧ exec .xordec (issued (encode .xordec) t) = .next u ∧
      Succeeded t ∧ Succeeded u ∧ u.buf = s.buf ∧ u.len = s.len

/-- 10_state.md R23: FWENC and FWDEC do not read IV: with another value in it they answer the same,
the IV itself aside where they do not write it. -/
def Obligations.ContainerOperationsDoNotReadIv : Prop :=
  ∀ (i : Instr) (s t : State) (v : Block), i = .fwenc ∨ i = .fwdec → InFlight i s → exec i s = .next t →
    (Succeeded t → exec i { s with iv := v } = .next t) ∧
    (¬ Succeeded t → exec i { s with iv := v } = .next { t with iv := v })

/-! ## Errors -/

/-- R231: TOO_SHORT is raised by FWDEC, and only by it, when LEN < 16; LEN = 16 is INVALID_LENGTH. -/
def Obligations.TooShortIsFwdecBelow16 : Prop :=
  (∀ s : State, s.status.keyv = true → s.len < 16 → exec .fwdec s = .next (ended .tooShort s)) ∧
  (∀ (i : Instr) (s t : State), InFlight i s → exec i s = .next t →
    (t.err = .tooShort ↔ i = .fwdec ∧ s.status.keyv = true ∧ s.len < 16)) ∧
  ∀ s : State, InFlight .fwdec s → s.status.keyv = true → s.len = 16 →
    exec .fwdec s = .next (ended .invalidLength s)

/-- R232: INVALID_LENGTH is raised by FWDEC when `LEN >= 16` and `LEN - 16` is 0 or no multiple of 16,
by CBCDEC when LEN is 0 or no multiple of 16, and by nothing else. -/
def Obligations.InvalidLengthIsAPartialCiphertext : Prop :=
  (∀ s : State, InFlight .fwdec s → s.status.keyv = true → 16 ≤ s.len →
    (s.len - 16 = 0 ∨ (s.len - 16) % 16 ≠ 0) → exec .fwdec s = .next (ended .invalidLength s)) ∧
  (∀ s : State, s.status.keyv = true → s.status.ivv = true → (s.len = 0 ∨ s.len % 16 ≠ 0) →
    exec .cbcdec s = .next (ended .invalidLength s)) ∧
  ∀ (i : Instr) (s t : State), InFlight i s → exec i s = .next t →
    (t.err = .invalidLength ↔
      (i = .fwdec ∧ s.status.keyv = true ∧ 16 ≤ s.len ∧ (s.len - 16 = 0 ∨ (s.len - 16) % 16 ≠ 0)) ∨
      (i = .cbcdec ∧ s.status.keyv = true ∧ s.status.ivv = true ∧ (s.len = 0 ∨ s.len % 16 ≠ 0)))

/-- R233: BAD_PADDING_OR_KEY is raised by FWDEC exactly when `unpad` fails on the decrypted container. -/
def Obligations.BadPaddingOrKeyIsFwdecsPaddingFailure : Prop :=
  (∀ (s : State) (v : Block) (c : List Byte), content s = some (v.bytes ++ c) → s.status.keyv = true →
    c.length ≠ 0 → c.length % 16 = 0 → unpad (cbcDec s.key v c) = none →
    exec .fwdec s = .next (ended .badPaddingOrKey s)) ∧
  ∀ (i : Instr) (s t : State), InFlight i s → exec i s = .next t →
    (t.err = .badPaddingOrKey ↔ i = .fwdec ∧ s.status.keyv = true ∧ ∃ (v : Block) (c : List Byte),
      content s = some (v.bytes ++ c) ∧ c.length ≠ 0 ∧ c.length % 16 = 0 ∧
      unpad (cbcDec s.key v c) = none)

/-- R234: PADDING_ERROR is raised by CBCDEC exactly when `unpad` fails; FWDEC never shows it and CBCDEC
never shows BAD_PADDING_OR_KEY. -/
def Obligations.PaddingErrorIsCbcdecsPaddingFailure : Prop :=
  (∀ (s : State) (c : List Byte), content s = some c → s.status.keyv = true → s.status.ivv = true →
    s.len ≠ 0 → s.len % 16 = 0 → unpad (cbcDec s.key s.iv c) = none →
    exec .cbcdec s = .next (ended .paddingError s)) ∧
  ∀ (i : Instr) (s t : State), InFlight i s → exec i s = .next t →
    (t.err = .paddingError ↔ i = .cbcdec ∧ s.status.keyv = true ∧ s.status.ivv = true ∧
      ∃ c : List Byte, content s = some c ∧ s.len ≠ 0 ∧ s.len % 16 = 0 ∧
        unpad (cbcDec s.key s.iv c) = none) ∧
    (i = .fwdec → t.err ≠ .paddingError) ∧ (i = .cbcdec → t.err ≠ .badPaddingOrKey)

/-- R236: NO_OPERAND is raised exactly when a needed operand register was never written. -/
def Obligations.NoOperandIsAMissingOperand : Prop :=
  ∀ (i : Instr) (s : State),
    let missing := ((i = .fwdec ∨ i = .fwenc) ∧ s.status.keyv = false) ∨
      ((i = .cbcdec ∨ i = .cbcenc) ∧ (s.status.keyv = false ∨ s.status.ivv = false)) ∨
      (i = .kdf ∧ s.status.tokv = false)
    (missing → exec i s = .next (ended .noOperand s)) ∧
    ∀ t, InFlight i s → exec i s = .next t → (t.err = .noOperand ↔ missing)

/-- R237: OVERFLOW is raised by FWENC and CBCENC exactly when the result would not fit, so never with
an unbounded buffer. -/
def Obligations.OverflowIsAResultThatDoesNotFit : Prop :=
  ∀ (i : Instr) (s : State),
    let tooLong :=
      (i = .fwenc ∧ s.status.keyv = true ∧ ∃ c, s.params.bufcap = some c ∧ c < 16 + 16 * (s.len / 16 + 1)) ∨
      (i = .cbcenc ∧ s.status.keyv = true ∧ s.status.ivv = true ∧
        ∃ c, s.params.bufcap = some c ∧ c < 16 * (s.len / 16 + 1))
    (tooLong → exec i s = .next (ended .overflow s)) ∧
    (∀ t, InFlight i s → exec i s = .next t → (t.err = .overflow ↔ tooLong)) ∧
    ∀ t, InFlight i s → s.params.bufcap = none → exec i s = .next t → t.err ≠ .overflow

/-- R241: the state after an error is the state at ISSUE with only ERR, BUSY and DONE changed: an EXEC that
ends with an error, an illegal command's among them, writes those three and nothing else; and from
ISSUE to EXEC no step that leaves the operation in flight changes the block. -/
def Obligations.ErrorsWriteNothingElse : Prop :=
  (∀ s t : State, Coherent s → s.status.busy = true → coreTurn s = .next t → t.err ≠ .ok →
    t = { s with err := t.err, status := { s.status with busy := false, done := true } }) ∧
  ∀ s t : State, s.status.busy = true → step s = .next t → t.status.busy = true →
    t = { s with rng := t.rng, agenda := t.agenda, readings := t.readings, fresh := t.fresh }

/-- 60_exceptions.md R242: the same command on the state an error left gives the same error again. -/
def Obligations.AFailedCommandFailsAgain : Prop :=
  ∀ s t : State, Coherent s → s.status.busy = true → coreTurn s = .next t → t.err ≠ .ok →
    coreTurn (issued t.cmd t) = .next t

/-! ## The draw -/

/-- 42_ivgen.md R141: an EXEC takes at most one draw; only a successful IVGEN or FWENC takes one, the
RNG's oldest answer, and it becomes the IV. -/
def Obligations.OnlyIvgenAndFwencDraw : Prop :=
  ∀ (i : Instr) (s t : State), InFlight i s → exec i s = .next t →
    ((i = .ivgen ∨ i = .fwenc) ∧ Succeeded t ∧ s.rng = t.iv :: t.rng) ∨
    (¬ ((i = .ivgen ∨ i = .fwenc) ∧ Succeeded t) ∧ t.rng = s.rng)

/-- 42_ivgen.md R142, 46_host_actions.md R210: an EXEC either waits, changing nothing, exactly when it
needs a draw the RNG does not have, or completes. -/
def Obligations.ExecWaitsForTheRngOrCompletes : Prop :=
  ∀ s : State, Coherent s → s.status.busy = true →
    (waitsForRng s = true ∧ coreTurn s = .next s) ∨
    (waitsForRng s = false ∧ ∃ t, coreTurn s = .next t ∧ t.status.busy = false ∧ t.status.done = true)

/-- 70_reset_and_hazards.md R276: with no move named, an issued operation completes within two moves,
the RNG's answer and EXEC; a `wait` then ends by reading DONE (the model's fair order of moves, log
entries 6 and 9). -/
def Obligations.IssuedOperationsComplete : Prop :=
  ∀ s : State, Coherent s → s.status.busy = true →
    (s.agenda = [] → ∃ t, Sys2Proof.core.run 2 s = .next t ∧ t.status.busy = false ∧ t.status.done = true) ∧
    (s.agenda = [.wait] → ∃ t, Sys2Proof.core.run 3 s = .next t ∧ t.agenda = [] ∧ t.status.busy = false ∧
      t.status.done = true ∧ t.readings = s.readings ++ [.status (statusByte t.status)])

/-! ## Host actions -/

/-- R201, R202, R203: WKEY, WIV and WTOK write their register whole and set its flag; an argument of
another length writes nothing. -/
def Obligations.OperandWritesSetRegisterAndFlag : Prop :=
  ∀ (s : State) (d : List Byte), s.status.busy = false →
    (d.length = 16 → ∃ b : Block, b.bytes = d ∧
      hostAct (.wkey d) s = .next { s with key := b, status := { s.status with keyv := true } } ∧
      hostAct (.wiv d) s = .next { s with iv := b, status := { s.status with ivv := true } }) ∧
    (d.length ≠ 16 → hostAct (.wkey d) s = .next s ∧ hostAct (.wiv d) s = .next s) ∧
    (d.length = 8 → ∃ b : Token, b.bytes = d ∧
      hostAct (.wtok d) s = .next { s with tok := b, status := { s.status with tokv := true } }) ∧
    (d.length ≠ 8 → hostAct (.wtok d) s = .next s)

/-- R204: LDBUF makes the buffer hold exactly its argument; one longer than BUFCAP is dropped whole. -/
def Obligations.LdbufLoadsTheBuffer : Prop :=
  ∀ (s : State) (d : List Byte), s.status.busy = false →
    ((s.params.bufcap = none ∨ ∃ c, s.params.bufcap = some c ∧ d.length ≤ c) →
      ∃ t, hostAct (.ldbuf d) s = .next t ∧ content t = some d ∧
        (∀ a, d.length ≤ a → Memory.read t.buf a = none) ∧
        t = { s with buf := t.buf, len := d.length }) ∧
    (∀ c, s.params.bufcap = some c → c < d.length → hostAct (.ldbuf d) s = .next s)

/-- R205: ISSUE stores any byte in CMD, clears ERR and DONE and sets BUSY. -/
def Obligations.IssueStartsAnOperation : Prop :=
  ∀ (s : State) (b : Byte), s.status.busy = false →
    hostAct (.issue b) s = .next { s with cmd := b, err := .ok,
                                          status := { s.status with busy := true, done := false } }

/-- 46_host_actions.md R200, 10_state.md R40: RESET, at any time, clears CMD, STATUS, ERR and LEN and
leaves no byte of BUF with a value; it takes no draw and touches neither the host nor the parameters;
the state after power-on has the same values. -/
def Obligations.ResetClearsTheBlock : Prop :=
  (∀ s : State, ∃ t, hostAct .reset s = .next t ∧ t.cmd = 0 ∧ statusByte t.status = 0 ∧
    errByte t.err = 0 ∧ t.len = 0 ∧ (∀ a, Memory.read t.buf a = none) ∧ t.rng = s.rng ∧
    t.agenda = s.agenda ∧ t.readings = s.readings ∧ t.params = s.params) ∧
  State.reset.cmd = 0 ∧ statusByte State.reset.status = 0 ∧ errByte State.reset.err = 0 ∧
  State.reset.len = 0 ∧ ∀ a, Memory.read State.reset.buf a = none

/-- R206: RDSTAT returns STATUS and RDERR returns ERR, as one of the codes 0 to 7 of R230, at any time and
change nothing in the block; while BUSY = 1, RDERR returns 0. -/
def Obligations.StatusReadsAreAlwaysAllowed : Prop :=
  ∀ s : State, ∃ v e : Byte,
    hostAct .rdstat s = .next { s with readings := s.readings ++ [.status v] } ∧
    v.toNat = s.status.busy.toNat + 2 * s.status.done.toNat + 4 * s.status.keyv.toNat +
      8 * s.status.ivv.toNat + 16 * s.status.tokv.toNat + 32 * s.status.dkv.toNat ∧
    hostAct .rderr s = .next { s with readings := s.readings ++ [.err e] } ∧
    e.toNat = (match s.err with
      | .ok => 0
      | .tooShort => 1
      | .invalidLength => 2
      | .badPaddingOrKey => 3
      | .paddingError => 4
      | .illegalCmd => 5
      | .noOperand => 6
      | .overflow => 7) ∧ (Coherent s → s.status.busy = true → e = 0)

/-- 46_host_actions.md R207, R208: while BUSY = 0, RDLEN returns LEN, RDBUF the whole valid content, RDIV
the IV once IVV is 1 and RDDKEY the DKEY once DKV is 1; with the flag 0 these two return an unspecified
value of their type, which uses up one free value (log entry 8); they change nothing in the block. -/
def Obligations.ResultReadsReturnTheResult : Prop :=
  ∀ s : State, s.status.busy = false →
    hostAct .rdlen s = .next { s with readings := s.readings ++ [.len s.len] } ∧
    (∀ bs, content s = some bs → hostAct .rdbuf s = .next { s with readings := s.readings ++ [.buf bs] }) ∧
    (s.status.ivv = true → hostAct .rdiv s = .next { s with readings := s.readings ++ [.iv s.iv] }) ∧
    (s.status.dkv = true → hostAct .rddkey s = .next { s with readings := s.readings ++ [.dkey s.dkey] }) ∧
    (s.status.ivv = false → ∃ v : Block,
      hostAct .rdiv s = .next { s with readings := s.readings ++ [.iv v], fresh := s.fresh + 1 }) ∧
    (s.status.dkv = false → ∃ v : Block,
      hostAct .rddkey s = .next { s with readings := s.readings ++ [.dkey v], fresh := s.fresh + 1 })

/-- 46_host_actions.md R209: while BUSY = 1 the host's writes and ISSUE change nothing at all, and its
result reads change nothing but what the host has read; at any time an argument that does not fit
is dropped. -/
def Obligations.ABusyBlockDropsHostWrites : Prop :=
  ∀ (a : HostAction) (s : State),
    (s.status.busy = true →
      (∀ d, a = .wkey d ∨ a = .wiv d ∨ a = .wtok d ∨ a = .ldbuf d → hostAct a s = .next s) ∧
      (∀ b, a = .issue b → hostAct a s = .next s) ∧
      (a = .rdlen ∨ a = .rdbuf ∨ a = .rdiv ∨ a = .rddkey →
        ∃ r, hostAct a s = .next { s with readings := s.readings ++ [r], fresh := s.fresh + 1 })) ∧
    (a.wf s.params = false → hostAct a s = .next s)

/-- 60_exceptions.md R245: no host action returns KEY or TOK: with other contents in them the host
reads the same. -/
def Obligations.NoHostActionReadsKeyOrTok : Prop :=
  ∀ (a : HostAction) (s : State) (k : Block) (t : Token),
    SameOutcome (fun u => { u with key := k, tok := t }) (hostAct a s) (hostAct a { s with key := k, tok := t })

/-! ## The whole machine -/

/-- The invariant holds after power-on (R40; the zero registers are the model's choice, log entry 1,
and no clause rests on them). -/
def Obligations.ResetMeetsTheInvariant : Prop := Coherent State.reset

/-- Every step of every agent keeps the invariant: BUF and LEN agree and stay within BUFCAP (R27, R54),
BUSY and DONE are never both 1 (R32), ERR is 0 while no operation has completed (R264), and so on. -/
def Obligations.EveryStepKeepsTheInvariant : Prop :=
  ∀ s t : State, Coherent s → step s = .next t → Coherent t

/-- 93_implementation_defined.md section 1: nothing in the block is a fault: from every state that
meets the invariant there is a next state. -/
def Obligations.NoStepFaults : Prop := ∀ s : State, Coherent s → ∃ t, step s = .next t

/-- R32: BUSY and DONE are never both 1; ISSUE moves an idle or done block to busy, EXEC a busy one to
done, RESET any to idle, and nothing else moves them: where neither an ISSUE on a block that is not
busy, nor a RESET, nor an EXEC that is enabled is made, the pair stays. -/
def Obligations.BusyAndDoneMoveByIssueExecReset : Prop :=
  ∀ s t : State, Coherent s → step s = .next t →
    ¬ (t.status.busy = true ∧ t.status.done = true) ∧
    (∀ b rest, s.agenda = .host (.issue b) :: rest → s.status.busy = false →
      t.status.busy = true ∧ t.status.done = false) ∧
    (∀ rest, s.agenda = .host .reset :: rest → t.status.busy = false ∧ t.status.done = false) ∧
    (∀ rest, s.agenda = .core :: rest → s.status.busy = true → waitsForRng s = false →
      t.status.busy = false ∧ t.status.done = true) ∧
    (∀ r rest, s.agenda = .coreDraw r :: rest → s.status.busy = true →
      t.status.busy = false ∧ t.status.done = true) ∧
    ((t.status.busy = s.status.busy ∧ t.status.done = s.status.done) ∨
      (s.status.busy = false ∧ ∃ b rest, s.agenda = .host (.issue b) :: rest) ∨
      (∃ rest, s.agenda = .host .reset :: rest) ∨
      (s.status.busy = true ∧ s.status.done = false ∧ t.status.busy = false ∧ t.status.done = true ∧
        ((∃ r rest, s.agenda = .coreDraw r :: rest) ∨
          (waitsForRng s = false ∧
            (s.agenda = [] ∨ (∃ rest, s.agenda = .wait :: rest) ∨ ∃ rest, s.agenda = .core :: rest)))))

/-- 10_state.md R31: a valid flag, once set, stays set until RESET. -/
def Obligations.ValidFlagsStayUntilReset : Prop :=
  ∀ s t : State, step s = .next t → (∀ rest, s.agenda ≠ .host .reset :: rest) →
    (s.status.keyv = true → t.status.keyv = true) ∧ (s.status.ivv = true → t.status.ivv = true) ∧
    (s.status.tokv = true → t.status.tokv = true) ∧ (s.status.dkv = true → t.status.dkv = true)

/-- 10_state.md R22 to R28, R42, 46_host_actions.md R215: over every step but RESET, KEY changes only by WKEY,
TOK only by WTOK, CMD only by ISSUE, all while BUSY = 0, and DKEY only by a KDF in flight; IV only by
WIV while BUSY = 0, by an IVGEN or FWENC in flight, to the draw it takes, or by an FWDEC in flight, to
the container's first 16 bytes; BUF and LEN only by LDBUF while BUSY = 0 or by a buffer operation that
ends without an error; and the RNG's step changes nothing but what the RNG has given. -/
def Obligations.RegistersChangeOnlyByTheirWriters : Prop :=
  ∀ s t : State, step s = .next t → (∀ rest, s.agenda ≠ .host .reset :: rest) →
    (t.key ≠ s.key → s.status.busy = false ∧
      ∃ k rest, s.agenda = .host (.wkey k) :: rest ∧ t.key.bytes = k) ∧
    (t.tok ≠ s.tok → s.status.busy = false ∧
      ∃ k rest, s.agenda = .host (.wtok k) :: rest ∧ t.tok.bytes = k) ∧
    (t.cmd ≠ s.cmd → s.status.busy = false ∧ ∃ rest, s.agenda = .host (.issue t.cmd) :: rest) ∧
    (t.dkey ≠ s.dkey → s.status.busy = true ∧ decode s.cmd = .ok .kdf ∧ t.dkey = derive s.tok) ∧
    (t.iv ≠ s.iv →
      (s.status.busy = false ∧ ∃ v rest, s.agenda = .host (.wiv v) :: rest ∧ t.iv.bytes = v) ∨
      (s.status.busy = true ∧ t.err = .ok ∧ (decode s.cmd = .ok .ivgen ∨ decode s.cmd = .ok .fwenc) ∧
        ((∃ rest, s.agenda = .coreDraw t.iv :: rest ∧ t.rng = s.rng) ∨ s.rng = t.iv :: t.rng)) ∨
      (s.status.busy = true ∧ t.err = .ok ∧ decode s.cmd = .ok .fwdec ∧
        Memory.readSeq s.buf 0 16 = some t.iv.bytes)) ∧
    (t.buf ≠ s.buf ∨ t.len ≠ s.len →
      (s.status.busy = false ∧ ∃ d rest, s.agenda = .host (.ldbuf d) :: rest ∧ content t = some d) ∨
      (s.status.busy = true ∧ t.err = .ok ∧
        ∃ i, decode s.cmd = .ok i ∧ i ≠ .kdf ∧ i ≠ .ivgen ∧ (i = .xordec → t.len = s.len))) ∧
    ∀ r rest, s.agenda = .rng r :: rest → t = { s with agenda := rest, rng := s.rng ++ [r] }

/-- 10_state.md R31, R40, R262: the contents of a register whose flag is 0 reach nothing, an RDIV or RDDKEY
while its flag is 0 aside, whose value is unspecified: two states that differ only there step to states
that differ only there. -/
def Obligations.UnwrittenRegistersReachNothing : Prop :=
  ∀ s s' : State, vouched s = vouched s' →
    (∀ rest, s.agenda = .host .rdiv :: rest → s.status.ivv = true) →
    (∀ rest, s.agenda = .host .rddkey :: rest → s.status.dkv = true) →
    SameOutcome vouched (step s) (step s')
end

