-- ==== Sys2Proof/Laws/Memory.lean ====
section
/-!
SUPPORT. Laws/Memory.lean: what the buffer's operations do: a read after a write, the canonical form
every operation keeps, and which addresses hold a value afterwards.
-/

namespace Sys2Proof.Machine

/-! ## Read after write -/

theorem Memory.read_write (m : Mem) (a b : Nat) (v : Byte) :
    Memory.read (Memory.write m a v) b = if a = b then some v else Memory.read m b := by
  induction m with
  | nil => simp [Memory.write, Memory.read]
  | cons c m ih =>
    obtain ⟨k, w⟩ := c
    simp only [Memory.write]
    split
    · simp [Memory.read]
    · split
      · rename_i _ hak
        subst hak
        by_cases hb : a = b <;> simp [Memory.read, hb]
      · rename_i _ hne
        simp only [Memory.read, ih]
        by_cases hk : k = b
        · subst hk
          simp [show ¬ a = k from hne]
        · simp [hk]

theorem Memory.read_writeSeq (v : List Byte) : ∀ (m : Mem) (a b : Nat),
    Memory.read (Memory.writeSeq m a v) b =
      if a ≤ b ∧ b < a + v.length then v[b - a]? else Memory.read m b := by
  induction v with
  | nil => intro m a b; simp [Memory.writeSeq]
  | cons x xs ih =>
    intro m a b
    simp only [Memory.writeSeq, ih, Memory.read_write, List.length_cons]
    by_cases hab : a = b
    · subst hab
      simp
    · by_cases h : a + 1 ≤ b ∧ b < a + 1 + xs.length
      · rw [if_pos h, if_pos (by omega), show b - a = (b - (a + 1)) + 1 by omega]
        simp
      · rw [if_neg h, if_neg hab, if_neg (by omega)]

theorem Memory.read_cut (m : Mem) (n b : Nat) :
    Memory.read (Memory.cut m n) b = if b < n then Memory.read m b else none := by
  induction m with
  | nil => simp [Memory.cut, Memory.read]
  | cons c m ih =>
    obtain ⟨k, w⟩ := c
    simp only [Memory.cut, List.filter_cons] at ih ⊢
    by_cases hk : k < n
    · simp only [hk, decide_true, if_true, Memory.read, ih]
      by_cases hkb : k = b
      · subst hkb
        simp [hk]
      · simp [hkb]
    · simp only [hk, decide_false, Bool.false_eq_true, if_false, ih, Memory.read]
      by_cases hb : b < n
      · simp [hb, show ¬ k = b by omega]
      · simp [hb]

/-! ## Sequences of bytes -/

theorem Memory.readSeq_eq_some_iff (m : Mem) : ∀ (n a : Nat) (bs : List Byte),
    Memory.readSeq m a n = some bs ↔
      bs.length = n ∧ ∀ i, i < n → Memory.read m (a + i) = bs[i]? := by
  intro n
  induction n with
  | zero =>
    intro a bs
    cases bs <;> simp [Memory.readSeq]
  | succ n ih =>
    intro a bs
    simp only [Memory.readSeq]
    constructor
    · intro h
      split at h
      · rename_i b cs hb hcs
        cases h
        obtain ⟨hl, hr⟩ := (ih _ _).1 hcs
        refine ⟨by simp [hl], fun i hi => ?_⟩
        cases i with
        | zero => simpa using hb
        | succ i =>
          have := hr i (by omega)
          simpa [Nat.add_assoc, Nat.add_comm 1] using this
      · cases h
    · rintro ⟨hl, hr⟩
      cases bs with
      | nil => simp at hl
      | cons b cs =>
        have h0 : Memory.read m a = some b := by simpa using hr 0 (by omega)
        have h1 : Memory.readSeq m (a + 1) n = some cs := by
          refine (ih _ _).2 ⟨by simpa using hl, fun i hi => ?_⟩
          have := hr (i + 1) (by omega)
          simpa [Nat.add_assoc, Nat.add_comm 1] using this
        simp [h0, h1]

theorem Memory.length_of_readSeq {m : Mem} {a n : Nat} {bs : List Byte}
    (h : Memory.readSeq m a n = some bs) : bs.length = n :=
  ((Memory.readSeq_eq_some_iff m n a bs).1 h).1

/-- A part of a sequence that can be read can be read. -/
theorem Memory.readSeq_part {m : Mem} {a n : Nat} {bs : List Byte}
    (h : Memory.readSeq m a n = some bs) (i j : Nat) (hij : i + j ≤ n) :
    Memory.readSeq m (a + i) j = some ((bs.drop i).take j) := by
  obtain ⟨hl, hr⟩ := (Memory.readSeq_eq_some_iff m n a bs).1 h
  refine (Memory.readSeq_eq_some_iff _ _ _ _).2 ⟨by simp [hl]; omega, fun p hp => ?_⟩
  rw [Nat.add_assoc, hr (i + p) (by omega)]
  simp [hp]

/-- What was written can be read back, through a cut above it. -/
theorem Memory.readSeq_writeSeq_cut (m : Mem) (v : List Byte) (n : Nat) (h : v.length ≤ n) :
    Memory.readSeq (Memory.cut (Memory.writeSeq m 0 v) n) 0 v.length = some v := by
  refine (Memory.readSeq_eq_some_iff _ _ _ _).2 ⟨rfl, fun i hi => ?_⟩
  rw [Memory.read_cut, if_pos (by omega), Memory.read_writeSeq]
  simp [hi]

theorem Memory.readSeq_writeSeq (m : Mem) (v : List Byte) :
    Memory.readSeq (Memory.writeSeq m 0 v) 0 v.length = some v := by
  refine (Memory.readSeq_eq_some_iff _ _ _ _).2 ⟨rfl, fun i hi => ?_⟩
  rw [Memory.read_writeSeq]
  simp [hi]

/-! ## The canonical form -/

theorem Memory.risingFrom_mono {lo lo' : Nat} (h : lo' ≤ lo) :
    ∀ {m : Mem}, Memory.risingFrom lo m = true → Memory.risingFrom lo' m = true
  | [], _ => rfl
  | (k, _) :: m, hm => by
    simp only [Memory.risingFrom, Bool.and_eq_true, decide_eq_true_eq] at hm ⊢
    exact ⟨by omega, hm.2⟩

theorem Memory.risingFrom_write {m : Mem} : ∀ {lo a : Nat} {v : Byte},
    Memory.risingFrom lo m = true → Memory.risingFrom (min lo a) (Memory.write m a v) = true := by
  induction m with
  | nil => intro lo a v _; simp [Memory.write, Memory.risingFrom]
  | cons c m ih =>
    obtain ⟨k, w⟩ := c
    intro lo a v h
    simp only [Memory.risingFrom, Bool.and_eq_true, decide_eq_true_eq] at h
    simp only [Memory.write]
    split
    · simp only [Memory.risingFrom, Bool.and_eq_true, decide_eq_true_eq]
      exact ⟨by omega, by omega, h.2⟩
    · split
      · simp only [Memory.risingFrom, Bool.and_eq_true, decide_eq_true_eq]
        rename_i hak
        subst hak
        exact ⟨by omega, h.2⟩
      · simp only [Memory.risingFrom, Bool.and_eq_true, decide_eq_true_eq]
        refine ⟨by omega, ?_⟩
        have := ih (a := a) (v := v) h.2
        rwa [show min (k + 1) a = k + 1 by omega] at this

/-- A write keeps the canonical form. -/
theorem Memory.wf_write {m : Mem} {a : Nat} {v : Byte} (h : Memory.wf m = true) :
    Memory.wf (Memory.write m a v) = true := by
  have := Memory.risingFrom_write (a := a) (v := v) h
  simpa [Memory.wf] using this

/-- Writing a sequence keeps the canonical form. -/
theorem Memory.wf_writeSeq (v : List Byte) : ∀ {m : Mem} {a : Nat}, Memory.wf m = true →
    Memory.wf (Memory.writeSeq m a v) = true := by
  induction v with
  | nil => intro m a h; exact h
  | cons x xs ih => intro m a h; exact ih (Memory.wf_write h)

theorem Memory.risingFrom_cut {m : Mem} {n : Nat} : ∀ {lo : Nat},
    Memory.risingFrom lo m = true → Memory.risingFrom lo (Memory.cut m n) = true := by
  induction m with
  | nil => intro lo h; exact h
  | cons c m ih =>
    obtain ⟨k, w⟩ := c
    intro lo h
    simp only [Memory.risingFrom, Bool.and_eq_true, decide_eq_true_eq] at h
    simp only [Memory.cut, List.filter_cons] at ih ⊢
    split
    · simp only [Memory.risingFrom, Bool.and_eq_true, decide_eq_true_eq]
      exact ⟨h.1, ih h.2⟩
    · exact ih (Memory.risingFrom_mono (by omega) h.2)

/-- Forgetting the bytes from an address up keeps the canonical form. -/
theorem Memory.wf_cut {m : Mem} {n : Nat} (h : Memory.wf m = true) :
    Memory.wf (Memory.cut m n) = true := Memory.risingFrom_cut h

/-! ## A buffer that holds exactly the addresses below a length -/

/-- The addresses are `lo`, `lo + 1`, and so on: the shape in which `Coherent` has BUF. -/
theorem Memory.read_of_addresses {m : Mem} : ∀ {lo n : Nat}, m.map Prod.fst = List.range' lo n →
    ∀ a, (Memory.read m a).isSome = true ↔ lo ≤ a ∧ a < lo + n := by
  induction m with
  | nil =>
    intro lo n h a
    have : n = 0 := by simpa using congrArg List.length h.symm
    subst this
    simp [Memory.read]
  | cons c m ih =>
    obtain ⟨k, w⟩ := c
    intro lo n h a
    cases n with
    | zero => simp at h
    | succ n =>
      simp only [List.range'_succ, List.map_cons, List.cons.injEq] at h
      obtain ⟨rfl, ht⟩ := h
      simp only [Memory.read]
      by_cases hk : k = a
      · subst hk; simp
      · simp only [hk, if_false, ih ht a]; omega

/-- Below a canonical buffer's least address no byte has a value. -/
theorem Memory.read_below {m : Mem} : ∀ {lo a : Nat}, Memory.risingFrom lo m = true → a < lo →
    Memory.read m a = none := by
  induction m with
  | nil => intros; rfl
  | cons c m ih =>
    obtain ⟨k, w⟩ := c
    intro lo a h ha
    simp only [Memory.risingFrom, Bool.and_eq_true, decide_eq_true_eq] at h
    simp only [Memory.read, show ¬ k = a by omega, if_false]
    exact ih h.2 (by omega)

/-- Canonical buffers are equal when every address reads the same in both. -/
theorem Memory.ext_of_rising {m m' : Mem} : ∀ {lo : Nat}, Memory.risingFrom lo m = true →
    Memory.risingFrom lo m' = true → (∀ a, Memory.read m a = Memory.read m' a) → m = m' := by
  induction m generalizing m' with
  | nil =>
    intro lo _ _ hr
    cases m' with
    | nil => rfl
    | cons c m' => have := hr c.1; simp [Memory.read] at this
  | cons c m ih =>
    obtain ⟨k, w⟩ := c
    intro lo h h' hr
    cases m' with
    | nil => have := hr k; simp [Memory.read] at this
    | cons c' m' =>
      obtain ⟨k', w'⟩ := c'
      simp only [Memory.risingFrom, Bool.and_eq_true, decide_eq_true_eq] at h h'
      have hk : k = k' := by
        rcases Nat.lt_trichotomy k k' with hlt | heq | hgt
        · have h2 := hr k
          rw [show Memory.read ((k', w') :: m') k = none by
            simp only [Memory.read, show ¬ k' = k by omega, if_false]
            exact Memory.read_below h'.2 (by omega)] at h2
          simp [Memory.read] at h2
        · exact heq
        · have h2 := hr k'
          rw [show Memory.read ((k, w) :: m) k' = none by
            simp only [Memory.read, show ¬ k = k' by omega, if_false]
            exact Memory.read_below h.2 (by omega)] at h2
          simp [Memory.read] at h2
      subst hk
      have hw : w = w' := by simpa [Memory.read] using hr k
      subst hw
      refine congrArg _ (ih h.2 h'.2 fun a => ?_)
      by_cases ha : k = a
      · subst ha
        rw [Memory.read_below h.2 (by omega), Memory.read_below h'.2 (by omega)]
      · simpa [Memory.read, ha] using hr a

/-- The addresses 0 up to a length are in canonical form. -/
theorem Memory.risingFrom_of_addresses {m : Mem} : ∀ {lo n : Nat}, m.map Prod.fst = List.range' lo n →
    Memory.risingFrom lo m = true := by
  induction m with
  | nil => intros; rfl
  | cons c m ih =>
    obtain ⟨k, w⟩ := c
    intro lo n h
    cases n with
    | zero => simp at h
    | succ n =>
      simp only [List.range'_succ, List.map_cons, List.cons.injEq] at h
      obtain ⟨rfl, ht⟩ := h
      simp [Memory.risingFrom, ih ht]

/-- In canonical form, the addresses below `n` are listed exactly when each of them has a value and no
other does. -/
theorem Memory.addresses_of_read {m : Mem} : ∀ {lo n : Nat}, Memory.risingFrom lo m = true →
    (∀ a, (Memory.read m a).isSome = true ↔ lo ≤ a ∧ a < lo + n) → m.map Prod.fst = List.range' lo n := by
  induction m with
  | nil =>
    intro lo n _ h
    have := h lo
    simp [Memory.read] at this
    subst this
    rfl
  | cons c m ih =>
    obtain ⟨k, w⟩ := c
    intro lo n hm h
    simp only [Memory.risingFrom, Bool.and_eq_true, decide_eq_true_eq] at hm
    have hk := (h k).1 (by simp [Memory.read])
    have hlo : lo = k := by
      by_contra hne
      have h1 := (h lo).2 ⟨le_refl _, by omega⟩
      have h2 : Memory.read ((k, w) :: m) lo = none := by
        have hrise : Memory.risingFrom k ((k, w) :: m) = true := by simp [Memory.risingFrom, hm.2]
        exact Memory.read_below hrise (by omega)
      simp [h2] at h1
    subst hlo
    cases n with
    | zero => omega
    | succ n =>
      simp only [List.range'_succ, List.map_cons, List.cons.injEq, true_and]
      refine ih hm.2 fun a => ?_
      have ha := h a
      by_cases hka : lo = a
      · subst hka
        constructor
        · intro hs
          exfalso
          have : Memory.read m lo = none := by
            exact Memory.read_below hm.2 (by omega)
          simp [this] at hs
        · intro hs; omega
      · simp only [Memory.read, hka, if_false] at ha
        rw [ha]; omega

end Sys2Proof.Machine
end

