-- ==== Sys2Proof/Laws/State.lean ====
section
/-!
SUPPORT. Laws/State.lean: what each named update of the state leaves in each field, one lemma per field
per update, so that no proof unfolds a record update.
-/

namespace Sys2Proof.Machine

variable (s : State)

/-! ## setLen -/

@[simp] theorem setLen_key (n : Nat) : (setLen n s).key = s.key := rfl
@[simp] theorem setLen_iv (n : Nat) : (setLen n s).iv = s.iv := rfl
@[simp] theorem setLen_tok (n : Nat) : (setLen n s).tok = s.tok := rfl
@[simp] theorem setLen_dkey (n : Nat) : (setLen n s).dkey = s.dkey := rfl
@[simp] theorem setLen_buf (n : Nat) : (setLen n s).buf = Memory.cut s.buf n := rfl
@[simp] theorem setLen_len (n : Nat) : (setLen n s).len = n := rfl
@[simp] theorem setLen_cmd (n : Nat) : (setLen n s).cmd = s.cmd := rfl
@[simp] theorem setLen_status (n : Nat) : (setLen n s).status = s.status := rfl
@[simp] theorem setLen_err (n : Nat) : (setLen n s).err = s.err := rfl
@[simp] theorem setLen_params (n : Nat) : (setLen n s).params = s.params := rfl
@[simp] theorem setLen_rng (n : Nat) : (setLen n s).rng = s.rng := rfl
@[simp] theorem setLen_agenda (n : Nat) : (setLen n s).agenda = s.agenda := rfl
@[simp] theorem setLen_readings (n : Nat) : (setLen n s).readings = s.readings := rfl
@[simp] theorem setLen_fresh (n : Nat) : (setLen n s).fresh = s.fresh := rfl

/-! ## holding -/

@[simp] theorem holding_key (v : List Byte) : (holding v s).key = s.key := rfl
@[simp] theorem holding_iv (v : List Byte) : (holding v s).iv = s.iv := rfl
@[simp] theorem holding_tok (v : List Byte) : (holding v s).tok = s.tok := rfl
@[simp] theorem holding_dkey (v : List Byte) : (holding v s).dkey = s.dkey := rfl
@[simp] theorem holding_buf (v : List Byte) : (holding v s).buf = Memory.cut (Memory.writeSeq s.buf 0 v) v.length := rfl
@[simp] theorem holding_len (v : List Byte) : (holding v s).len = v.length := rfl
@[simp] theorem holding_cmd (v : List Byte) : (holding v s).cmd = s.cmd := rfl
@[simp] theorem holding_status (v : List Byte) : (holding v s).status = s.status := rfl
@[simp] theorem holding_err (v : List Byte) : (holding v s).err = s.err := rfl
@[simp] theorem holding_params (v : List Byte) : (holding v s).params = s.params := rfl
@[simp] theorem holding_rng (v : List Byte) : (holding v s).rng = s.rng := rfl
@[simp] theorem holding_agenda (v : List Byte) : (holding v s).agenda = s.agenda := rfl
@[simp] theorem holding_readings (v : List Byte) : (holding v s).readings = s.readings := rfl
@[simp] theorem holding_fresh (v : List Byte) : (holding v s).fresh = s.fresh := rfl

/-! ## setIv -/

@[simp] theorem setIv_key (v : Block) : (setIv v s).key = s.key := rfl
@[simp] theorem setIv_iv (v : Block) : (setIv v s).iv = v := rfl
@[simp] theorem setIv_tok (v : Block) : (setIv v s).tok = s.tok := rfl
@[simp] theorem setIv_dkey (v : Block) : (setIv v s).dkey = s.dkey := rfl
@[simp] theorem setIv_buf (v : Block) : (setIv v s).buf = s.buf := rfl
@[simp] theorem setIv_len (v : Block) : (setIv v s).len = s.len := rfl
@[simp] theorem setIv_cmd (v : Block) : (setIv v s).cmd = s.cmd := rfl
@[simp] theorem setIv_status (v : Block) : (setIv v s).status = { s.status with ivv := true } := rfl
@[simp] theorem setIv_err (v : Block) : (setIv v s).err = s.err := rfl
@[simp] theorem setIv_params (v : Block) : (setIv v s).params = s.params := rfl
@[simp] theorem setIv_rng (v : Block) : (setIv v s).rng = s.rng := rfl
@[simp] theorem setIv_agenda (v : Block) : (setIv v s).agenda = s.agenda := rfl
@[simp] theorem setIv_readings (v : Block) : (setIv v s).readings = s.readings := rfl
@[simp] theorem setIv_fresh (v : Block) : (setIv v s).fresh = s.fresh := rfl

/-! ## setDkey -/

@[simp] theorem setDkey_key (v : Block) : (setDkey v s).key = s.key := rfl
@[simp] theorem setDkey_iv (v : Block) : (setDkey v s).iv = s.iv := rfl
@[simp] theorem setDkey_tok (v : Block) : (setDkey v s).tok = s.tok := rfl
@[simp] theorem setDkey_dkey (v : Block) : (setDkey v s).dkey = v := rfl
@[simp] theorem setDkey_buf (v : Block) : (setDkey v s).buf = s.buf := rfl
@[simp] theorem setDkey_len (v : Block) : (setDkey v s).len = s.len := rfl
@[simp] theorem setDkey_cmd (v : Block) : (setDkey v s).cmd = s.cmd := rfl
@[simp] theorem setDkey_status (v : Block) : (setDkey v s).status = { s.status with dkv := true } := rfl
@[simp] theorem setDkey_err (v : Block) : (setDkey v s).err = s.err := rfl
@[simp] theorem setDkey_params (v : Block) : (setDkey v s).params = s.params := rfl
@[simp] theorem setDkey_rng (v : Block) : (setDkey v s).rng = s.rng := rfl
@[simp] theorem setDkey_agenda (v : Block) : (setDkey v s).agenda = s.agenda := rfl
@[simp] theorem setDkey_readings (v : Block) : (setDkey v s).readings = s.readings := rfl
@[simp] theorem setDkey_fresh (v : Block) : (setDkey v s).fresh = s.fresh := rfl

/-! ## ended -/

@[simp] theorem ended_key (e : Err) : (ended e s).key = s.key := rfl
@[simp] theorem ended_iv (e : Err) : (ended e s).iv = s.iv := rfl
@[simp] theorem ended_tok (e : Err) : (ended e s).tok = s.tok := rfl
@[simp] theorem ended_dkey (e : Err) : (ended e s).dkey = s.dkey := rfl
@[simp] theorem ended_buf (e : Err) : (ended e s).buf = s.buf := rfl
@[simp] theorem ended_len (e : Err) : (ended e s).len = s.len := rfl
@[simp] theorem ended_cmd (e : Err) : (ended e s).cmd = s.cmd := rfl
@[simp] theorem ended_status (e : Err) : (ended e s).status = { s.status with busy := false, done := true } := rfl
@[simp] theorem ended_err (e : Err) : (ended e s).err = e := rfl
@[simp] theorem ended_params (e : Err) : (ended e s).params = s.params := rfl
@[simp] theorem ended_rng (e : Err) : (ended e s).rng = s.rng := rfl
@[simp] theorem ended_agenda (e : Err) : (ended e s).agenda = s.agenda := rfl
@[simp] theorem ended_readings (e : Err) : (ended e s).readings = s.readings := rfl
@[simp] theorem ended_fresh (e : Err) : (ended e s).fresh = s.fresh := rfl

/-! ## issued -/

@[simp] theorem issued_key (b : Byte) : (issued b s).key = s.key := rfl
@[simp] theorem issued_iv (b : Byte) : (issued b s).iv = s.iv := rfl
@[simp] theorem issued_tok (b : Byte) : (issued b s).tok = s.tok := rfl
@[simp] theorem issued_dkey (b : Byte) : (issued b s).dkey = s.dkey := rfl
@[simp] theorem issued_buf (b : Byte) : (issued b s).buf = s.buf := rfl
@[simp] theorem issued_len (b : Byte) : (issued b s).len = s.len := rfl
@[simp] theorem issued_cmd (b : Byte) : (issued b s).cmd = b := rfl
@[simp] theorem issued_status (b : Byte) : (issued b s).status = { s.status with busy := true, done := false } := rfl
@[simp] theorem issued_err (b : Byte) : (issued b s).err = .ok := rfl
@[simp] theorem issued_params (b : Byte) : (issued b s).params = s.params := rfl
@[simp] theorem issued_rng (b : Byte) : (issued b s).rng = s.rng := rfl
@[simp] theorem issued_agenda (b : Byte) : (issued b s).agenda = s.agenda := rfl
@[simp] theorem issued_readings (b : Byte) : (issued b s).readings = s.readings := rfl
@[simp] theorem issued_fresh (b : Byte) : (issued b s).fresh = s.fresh := rfl

/-! ## record -/

@[simp] theorem record_key (r : Reading) : (record r s).key = s.key := rfl
@[simp] theorem record_iv (r : Reading) : (record r s).iv = s.iv := rfl
@[simp] theorem record_tok (r : Reading) : (record r s).tok = s.tok := rfl
@[simp] theorem record_dkey (r : Reading) : (record r s).dkey = s.dkey := rfl
@[simp] theorem record_buf (r : Reading) : (record r s).buf = s.buf := rfl
@[simp] theorem record_len (r : Reading) : (record r s).len = s.len := rfl
@[simp] theorem record_cmd (r : Reading) : (record r s).cmd = s.cmd := rfl
@[simp] theorem record_status (r : Reading) : (record r s).status = s.status := rfl
@[simp] theorem record_err (r : Reading) : (record r s).err = s.err := rfl
@[simp] theorem record_params (r : Reading) : (record r s).params = s.params := rfl
@[simp] theorem record_rng (r : Reading) : (record r s).rng = s.rng := rfl
@[simp] theorem record_agenda (r : Reading) : (record r s).agenda = s.agenda := rfl
@[simp] theorem record_readings (r : Reading) : (record r s).readings = s.readings ++ [r] := rfl
@[simp] theorem record_fresh (r : Reading) : (record r s).fresh = s.fresh := rfl

/-! ## recordFree -/

@[simp] theorem recordFree_key (r : Reading) : (recordFree r s).key = s.key := rfl
@[simp] theorem recordFree_iv (r : Reading) : (recordFree r s).iv = s.iv := rfl
@[simp] theorem recordFree_tok (r : Reading) : (recordFree r s).tok = s.tok := rfl
@[simp] theorem recordFree_dkey (r : Reading) : (recordFree r s).dkey = s.dkey := rfl
@[simp] theorem recordFree_buf (r : Reading) : (recordFree r s).buf = s.buf := rfl
@[simp] theorem recordFree_len (r : Reading) : (recordFree r s).len = s.len := rfl
@[simp] theorem recordFree_cmd (r : Reading) : (recordFree r s).cmd = s.cmd := rfl
@[simp] theorem recordFree_status (r : Reading) : (recordFree r s).status = s.status := rfl
@[simp] theorem recordFree_err (r : Reading) : (recordFree r s).err = s.err := rfl
@[simp] theorem recordFree_params (r : Reading) : (recordFree r s).params = s.params := rfl
@[simp] theorem recordFree_rng (r : Reading) : (recordFree r s).rng = s.rng := rfl
@[simp] theorem recordFree_agenda (r : Reading) : (recordFree r s).agenda = s.agenda := rfl
@[simp] theorem recordFree_readings (r : Reading) : (recordFree r s).readings = s.readings ++ [r] := rfl
@[simp] theorem recordFree_fresh (r : Reading) : (recordFree r s).fresh = s.fresh + 1 := rfl

/-! ## answerWith -/

@[simp] theorem answerWith_key (r : Block) : (answerWith r s).key = s.key := rfl
@[simp] theorem answerWith_iv (r : Block) : (answerWith r s).iv = s.iv := rfl
@[simp] theorem answerWith_tok (r : Block) : (answerWith r s).tok = s.tok := rfl
@[simp] theorem answerWith_dkey (r : Block) : (answerWith r s).dkey = s.dkey := rfl
@[simp] theorem answerWith_buf (r : Block) : (answerWith r s).buf = s.buf := rfl
@[simp] theorem answerWith_len (r : Block) : (answerWith r s).len = s.len := rfl
@[simp] theorem answerWith_cmd (r : Block) : (answerWith r s).cmd = s.cmd := rfl
@[simp] theorem answerWith_status (r : Block) : (answerWith r s).status = s.status := rfl
@[simp] theorem answerWith_err (r : Block) : (answerWith r s).err = s.err := rfl
@[simp] theorem answerWith_params (r : Block) : (answerWith r s).params = s.params := rfl
@[simp] theorem answerWith_agenda (r : Block) : (answerWith r s).agenda = s.agenda := rfl
@[simp] theorem answerWith_readings (r : Block) : (answerWith r s).readings = s.readings := rfl
@[simp] theorem answerWith_fresh (r : Block) : (answerWith r s).fresh = s.fresh := rfl
@[simp] theorem answerWith_rng (r : Block) :
    (answerWith r s).rng = if asksForDraw s then r :: s.rng else s.rng := rfl

/-! ## rngTurn -/

@[simp] theorem rngTurn_key (r : Block) : (rngTurn r s).key = s.key := rfl
@[simp] theorem rngTurn_iv (r : Block) : (rngTurn r s).iv = s.iv := rfl
@[simp] theorem rngTurn_tok (r : Block) : (rngTurn r s).tok = s.tok := rfl
@[simp] theorem rngTurn_dkey (r : Block) : (rngTurn r s).dkey = s.dkey := rfl
@[simp] theorem rngTurn_buf (r : Block) : (rngTurn r s).buf = s.buf := rfl
@[simp] theorem rngTurn_len (r : Block) : (rngTurn r s).len = s.len := rfl
@[simp] theorem rngTurn_cmd (r : Block) : (rngTurn r s).cmd = s.cmd := rfl
@[simp] theorem rngTurn_status (r : Block) : (rngTurn r s).status = s.status := rfl
@[simp] theorem rngTurn_err (r : Block) : (rngTurn r s).err = s.err := rfl
@[simp] theorem rngTurn_params (r : Block) : (rngTurn r s).params = s.params := rfl
@[simp] theorem rngTurn_rng (r : Block) : (rngTurn r s).rng = s.rng ++ [r] := rfl
@[simp] theorem rngTurn_agenda (r : Block) : (rngTurn r s).agenda = s.agenda := rfl
@[simp] theorem rngTurn_readings (r : Block) : (rngTurn r s).readings = s.readings := rfl
@[simp] theorem rngTurn_fresh (r : Block) : (rngTurn r s).fresh = s.fresh := rfl

/-! ## rngAnswers -/

@[simp] theorem rngAnswers_key : (rngAnswers s).key = s.key := rfl
@[simp] theorem rngAnswers_iv : (rngAnswers s).iv = s.iv := rfl
@[simp] theorem rngAnswers_tok : (rngAnswers s).tok = s.tok := rfl
@[simp] theorem rngAnswers_dkey : (rngAnswers s).dkey = s.dkey := rfl
@[simp] theorem rngAnswers_buf : (rngAnswers s).buf = s.buf := rfl
@[simp] theorem rngAnswers_len : (rngAnswers s).len = s.len := rfl
@[simp] theorem rngAnswers_cmd : (rngAnswers s).cmd = s.cmd := rfl
@[simp] theorem rngAnswers_status : (rngAnswers s).status = s.status := rfl
@[simp] theorem rngAnswers_err : (rngAnswers s).err = s.err := rfl
@[simp] theorem rngAnswers_params : (rngAnswers s).params = s.params := rfl
@[simp] theorem rngAnswers_rng : (rngAnswers s).rng = s.rng ++ [Config.freeDraw s.fresh] := rfl
@[simp] theorem rngAnswers_agenda : (rngAnswers s).agenda = s.agenda := rfl
@[simp] theorem rngAnswers_readings : (rngAnswers s).readings = s.readings := rfl
@[simp] theorem rngAnswers_fresh : (rngAnswers s).fresh = s.fresh + 1 := rfl

/-! ## The whole content of a buffer -/

@[simp] theorem content_issued (b : Byte) : content (issued b s) = content s := rfl
@[simp] theorem content_setIv (v : Block) : content (setIv v s) = content s := rfl
@[simp] theorem content_setDkey (v : Block) : content (setDkey v s) = content s := rfl
@[simp] theorem content_ended (e : Err) : content (ended e s) = content s := rfl

end Sys2Proof.Machine
end

