-- ==== Sys2Proof/Laws/Ops.lean ====
section
/-!
SUPPORT. Laws/Ops.lean: for each shared operation, everything it can do, said once: what it answers
where it is defined, and what must have held if it answers a next state.
-/

namespace Sys2Proof.Machine

/-! ## Parameters -/

/-- What is shorter than something that fits, fits. -/
theorem fits_mono {p : Params} {m n : Nat} (hn : p.fits n = true) (hmn : m ≤ n) : p.fits m = true := by
  unfold Params.fits at *
  split at hn
  · rfl
  · simp only [decide_eq_true_eq] at *; omega

theorem fits_eq_true_iff {p : Params} {n : Nat} :
    p.fits n = true ↔ ∀ c, p.bufcap = some c → n ≤ c := by
  unfold Params.fits
  split
  · rename_i h; simp [h]
  · rename_i c h; simp [h]

theorem fits_eq_false_iff {p : Params} {n : Nat} :
    p.fits n = false ↔ ∃ c, p.bufcap = some c ∧ c < n := by
  unfold Params.fits
  split
  · rename_i h; simp [h]
  · rename_i c h; simp [h]

/-! ## Checks and errors -/

@[simp] theorem check_true (e : Err) (s : State) (k : Result) : check true e s k = k := rfl

@[simp] theorem check_false (e : Err) (s : State) (k : Result) : check false e s k = raiseErr e s := rfl

/-- A checked operation goes on, or has ended with the check's error. -/
theorem check_eq_next {p : Bool} {e : Err} {s t : State} {k : Result} :
    check p e s k = .next t ↔ (p = true ∧ k = .next t) ∨ (p = false ∧ t = ended e s) := by
  cases p <;> simp [check, raiseErr, eq_comm]

/-! ## MemRead and MemWrite -/

theorem memRead_of_readSeq {s : State} {a n : Nat} {bs : List Byte} (k : List Byte → Result)
    (ha : a + n ≤ s.len) (h : Memory.readSeq s.buf a n = some bs) : memRead s a n k = k bs := by
  simp [memRead, ha, h]

/-- A read that is followed by a next state was defined. -/
theorem memRead_eq_next {s t : State} {a n : Nat} {k : List Byte → Result} :
    memRead s a n k = .next t ↔
      a + n ≤ s.len ∧ ∃ bs, Memory.readSeq s.buf a n = some bs ∧ k bs = .next t := by
  unfold memRead
  by_cases ha : a + n ≤ s.len
  · rw [if_pos ha]
    cases h : Memory.readSeq s.buf a n <;> simp [ha]
  · simp [ha]

theorem memWrite_of_fits {s : State} {a : Nat} {v : List Byte} (k : State → Result)
    (h : s.params.fits (a + v.length) = true) :
    memWrite s a v k = k { s with buf := Memory.writeSeq s.buf a v } := by
  simp [memWrite, h]

/-- A write that is followed by a next state was defined. -/
theorem memWrite_eq_next {s t : State} {a : Nat} {v : List Byte} {k : State → Result} :
    memWrite s a v k = .next t ↔
      s.params.fits (a + v.length) = true ∧ k { s with buf := Memory.writeSeq s.buf a v } = .next t := by
  unfold memWrite
  split <;> simp [*]

/-! ## The buffer operand and the buffer result -/

theorem content_length {s : State} {p : List Byte} (h : content s = some p) : p.length = s.len :=
  Memory.length_of_readSeq h

theorem bufOperand_of_content {s : State} {p : List Byte} (k : List Byte → Result)
    (h : content s = some p) : bufOperand s k = k p :=
  memRead_of_readSeq k (by omega) h

theorem bufOperand_eq_next {s t : State} {k : List Byte → Result} :
    bufOperand s k = .next t ↔ ∃ p, content s = some p ∧ k p = .next t := by
  unfold bufOperand
  rw [memRead_eq_next]
  simp [content]

theorem bufResult_of_fits {s : State} {v : List Byte} (k : State → Result)
    (h : s.params.fits v.length = true) : bufResult v s k = k (holding v s) := by
  simp [bufResult, h]

theorem bufResult_eq_next {s t : State} {v : List Byte} {k : State → Result} :
    bufResult v s k = .next t ↔ s.params.fits v.length = true ∧ k (holding v s) = .next t := by
  unfold bufResult
  split <;> simp [*]

/-- A buffer that was made to hold a sequence holds it. -/
@[simp] theorem content_holding (v : List Byte) (s : State) : content (holding v s) = some v :=
  Memory.readSeq_writeSeq_cut s.buf v v.length (le_refl _)

/-- From the new LEN up no byte has a value. -/
theorem read_holding_above {v : List Byte} {s : State} {a : Nat} (h : v.length ≤ a) :
    Memory.read (holding v s).buf a = none := by
  rw [holding_buf, Memory.read_cut, if_neg (by omega)]

/-! ## Sixteen bytes as a block -/

theorem Block.bytes_length (b : Block) : b.bytes.length = 16 := rfl

theorem Token.bytes_length (t : Token) : t.bytes.length = 8 := rfl

@[simp] theorem Block.ofList?_bytes (b : Block) : Block.ofList? b.bytes = some b := rfl

@[simp] theorem Token.ofList?_bytes (t : Token) : Token.ofList? t.bytes = some t := rfl

theorem Block.ofList?_eq_some {l : List Byte} {b : Block} (h : Block.ofList? l = some b) : l = b.bytes := by
  unfold Block.ofList? at h
  split at h
  · cases h; rfl
  · cases h

theorem Token.ofList?_eq_some {l : List Byte} {t : Token} (h : Token.ofList? l = some t) : l = t.bytes := by
  unfold Token.ofList? at h
  split at h
  · cases h; rfl
  · cases h

/-- Any sixteen bytes are a block. -/
theorem Block.exists_ofList? {l : List Byte} (h : l.length = 16) : ∃ b, Block.ofList? l = some b := by
  match l, h with
  | [_, _, _, _, _, _, _, _, _, _, _, _, _, _, _, _], _ => exact ⟨_, rfl⟩

/-- Any eight bytes are a token. -/
theorem Token.exists_ofList? {l : List Byte} (h : l.length = 8) : ∃ t, Token.ofList? l = some t := by
  match l, h with
  | [_, _, _, _, _, _, _, _], _ => exact ⟨_, rfl⟩

theorem blockOperand_eq_next {s t : State} {a : Nat} {k : Block → Result} :
    blockOperand s a k = .next t ↔
      a + 16 ≤ s.len ∧ ∃ b, Memory.readSeq s.buf a 16 = some b.bytes ∧ k b = .next t := by
  unfold blockOperand
  rw [memRead_eq_next]
  constructor
  · rintro ⟨ha, bs, hbs, hk⟩
    split at hk
    · rename_i b hb
      exact ⟨ha, b, by rw [hbs, Block.ofList?_eq_some hb], hk⟩
    · cases hk
  · rintro ⟨ha, b, hb, hk⟩
    exact ⟨ha, b.bytes, hb, by simpa using hk⟩

theorem blockOperand_of_readSeq {s : State} {a : Nat} {b : Block} (k : Block → Result)
    (ha : a + 16 ≤ s.len) (h : Memory.readSeq s.buf a 16 = some b.bytes) :
    blockOperand s a k = k b := by
  rw [blockOperand, memRead_of_readSeq _ ha h]
  simp

/-! ## The draw -/

theorem draw16_of_cons {s : State} {r : Block} {rest : List Block} (k : Block → State → Result)
    (h : s.rng = r :: rest) : draw16 s k = k r { s with rng := rest } := by
  simp [draw16, h]

/-- A draw waits with the state as it is, or hands over the RNG's oldest answer. -/
theorem draw16_eq_next {s t : State} {k : Block → State → Result} :
    draw16 s k = .next t ↔
      (s.rng = [] ∧ t = s) ∨ ∃ r rest, s.rng = r :: rest ∧ k r { s with rng := rest } = .next t := by
  unfold draw16
  split
  · rename_i h; simp [h, eq_comm]
  · rename_i r rest h; simp [h]

end Sys2Proof.Machine
end

