-- ==== Sys2Proof/Laws/Exec.lean ====
section
/-!
SUPPORT. Laws/Exec.lean: for each operation, everything a next state of it can be (the error it ended
with, a wait for the RNG, or its effect), so that no later proof unfolds an operation.
-/

namespace Sys2Proof.Machine

variable {s t : State}

theorem execKdf_eq_next :
    exec .kdf s = .next t ↔
      (s.status.tokv = false ∧ t = ended .noOperand s) ∨
      (s.status.tokv = true ∧ t = ended .ok (setDkey (derive s.tok) s)) := by
  simp only [exec, execKdf, check_eq_next, hasOperands, succeed, Host.Outcome.next.injEq]
  constructor <;> rintro (⟨h, e⟩ | ⟨h, e⟩)
  · exact .inr ⟨h, e.symm⟩
  · exact .inl ⟨h, e⟩
  · exact .inr ⟨h, e⟩
  · exact .inl ⟨h, e.symm⟩

theorem execIvgen_eq_next :
    exec .ivgen s = .next t ↔
      (s.rng = [] ∧ t = s) ∨
      ∃ r rest, s.rng = r :: rest ∧ t = ended .ok (setIv r { s with rng := rest }) := by
  simp only [exec, execIvgen, draw16_eq_next, succeed, Host.Outcome.next.injEq]
  constructor
  · rintro (h | ⟨r, rest, h, e⟩)
    · exact .inl h
    · exact .inr ⟨r, rest, h, e.symm⟩
  · rintro (h | ⟨r, rest, h, e⟩)
    · exact .inl h
    · exact .inr ⟨r, rest, h, e.symm⟩

theorem execXordec_eq_next :
    exec .xordec s = .next t ↔
      ∃ p, content s = some p ∧ s.params.fits (xorDecode p).length = true ∧
        t = ended .ok { s with buf := Memory.writeSeq s.buf 0 (xorDecode p) } := by
  simp only [exec, execXordec, bufOperand_eq_next, memWrite_eq_next, succeed, Host.Outcome.next.injEq,
    Nat.zero_add]
  constructor
  · rintro ⟨p, hp, hf, e⟩; exact ⟨p, hp, hf, e.symm⟩
  · rintro ⟨p, hp, hf, e⟩; exact ⟨p, hp, hf, e.symm⟩

theorem execCbcenc_eq_next :
    exec .cbcenc s = .next t ↔
      ((s.status.keyv && s.status.ivv) = false ∧ t = ended .noOperand s) ∨
      ((s.status.keyv && s.status.ivv) = true ∧ s.params.fits (cipherLength s.len) = false ∧
        t = ended .overflow s) ∨
      ((s.status.keyv && s.status.ivv) = true ∧ s.params.fits (cipherLength s.len) = true ∧
        ∃ p, content s = some p ∧ s.params.fits (encryptBlock s.key s.iv p).length = true ∧
          t = ended .ok (holding (encryptBlock s.key s.iv p) s)) := by
  simp only [exec, execCbcenc, check_eq_next, hasOperands, bufOperand_eq_next, bufResult_eq_next, succeed,
    Host.Outcome.next.injEq]
  constructor
  · rintro (⟨h, ⟨hf, p, hp, hl, e⟩ | ⟨hf, e⟩⟩ | ⟨h, e⟩)
    · exact .inr (.inr ⟨h, hf, p, hp, hl, e.symm⟩)
    · exact .inr (.inl ⟨h, hf, e⟩)
    · exact .inl ⟨h, e⟩
  · rintro (⟨h, e⟩ | ⟨h, hf, e⟩ | ⟨h, hf, p, hp, hl, e⟩)
    · exact .inr ⟨h, e⟩
    · exact .inl ⟨h, .inr ⟨hf, e⟩⟩
    · exact .inl ⟨h, .inl ⟨hf, p, hp, hl, e.symm⟩⟩

theorem execCbcdec_eq_next :
    exec .cbcdec s = .next t ↔
      ((s.status.keyv && s.status.ivv) = false ∧ t = ended .noOperand s) ∨
      ((s.status.keyv && s.status.ivv) = true ∧ cipherLengthOk s.len = false ∧
        t = ended .invalidLength s) ∨
      ((s.status.keyv && s.status.ivv) = true ∧ cipherLengthOk s.len = true ∧
        ∃ c, content s = some c ∧
          ((decryptBlock s.key s.iv c = none ∧ t = ended .paddingError s) ∨
            ∃ p, decryptBlock s.key s.iv c = some p ∧ s.params.fits p.length = true ∧
              t = ended .ok (holding p s))) := by
  simp only [exec, execCbcdec, check_eq_next, hasOperands, bufOperand_eq_next]
  constructor
  · rintro (⟨h, ⟨hf, c, hc, e⟩ | ⟨hf, e⟩⟩ | ⟨h, e⟩)
    · refine .inr (.inr ⟨h, hf, c, hc, ?_⟩)
      split at e
      · rename_i hn; cases e; exact .inl ⟨hn, rfl⟩
      · rename_i p hp
        simp only [bufResult_eq_next, succeed, Host.Outcome.next.injEq] at e
        exact .inr ⟨p, hp, e.1, e.2.symm⟩
    · exact .inr (.inl ⟨h, hf, e⟩)
    · exact .inl ⟨h, e⟩
  · rintro (⟨h, e⟩ | ⟨h, hf, e⟩ | ⟨h, hf, c, hc, e⟩)
    · exact .inr ⟨h, e⟩
    · exact .inl ⟨h, .inr ⟨hf, e⟩⟩
    · refine .inl ⟨h, .inl ⟨hf, c, hc, ?_⟩⟩
      rcases e with ⟨hn, rfl⟩ | ⟨p, hp, hl, rfl⟩
      · simp [hn, raiseErr]
      · simp [hp, bufResult_eq_next, succeed, hl]

theorem execFwenc_eq_next :
    exec .fwenc s = .next t ↔
      (s.status.keyv = false ∧ t = ended .noOperand s) ∨
      (s.status.keyv = true ∧ s.params.fits (containerLength s.len) = false ∧ t = ended .overflow s) ∨
      (s.status.keyv = true ∧ s.params.fits (containerLength s.len) = true ∧ s.rng = [] ∧ t = s) ∨
      (s.status.keyv = true ∧ s.params.fits (containerLength s.len) = true ∧
        ∃ r rest p, s.rng = r :: rest ∧ content s = some p ∧
          s.params.fits (container s.key r p).length = true ∧
          t = ended .ok (setIv r (holding (container s.key r p) { s with rng := rest }))) := by
  simp only [exec, execFwenc, check_eq_next, hasOperands, draw16_eq_next, bufOperand_eq_next,
    bufResult_eq_next, succeed, Host.Outcome.next.injEq]
  constructor
  · rintro (⟨h, ⟨hf, ⟨hr, e⟩ | ⟨r, rest, hr, p, hp, hl, e⟩⟩ | ⟨hf, e⟩⟩ | ⟨h, e⟩)
    · exact .inr (.inr (.inl ⟨h, hf, hr, e⟩))
    · exact .inr (.inr (.inr ⟨h, hf, r, rest, p, hr, hp, hl, e.symm⟩))
    · exact .inr (.inl ⟨h, hf, e⟩)
    · exact .inl ⟨h, e⟩
  · rintro (⟨h, e⟩ | ⟨h, hf, e⟩ | ⟨h, hf, hr, e⟩ | ⟨h, hf, r, rest, p, hr, hp, hl, e⟩)
    · exact .inr ⟨h, e⟩
    · exact .inl ⟨h, .inr ⟨hf, e⟩⟩
    · exact .inl ⟨h, .inl ⟨hf, .inl ⟨hr, e⟩⟩⟩
    · exact .inl ⟨h, .inl ⟨hf, .inr ⟨r, rest, hr, p, hp, hl, e.symm⟩⟩⟩

/-- Where FWDEC passes its operand and shortness checks, LEN splits the content in two. -/
theorem content_split (hlen : 16 ≤ s.len) {v : Block} {c : List Byte}
    (hv : Memory.readSeq s.buf 0 16 = some v.bytes) (hc : Memory.readSeq s.buf 16 (s.len - 16) = some c) :
    content s = some (v.bytes ++ c) := by
  rw [Memory.readSeq_eq_some_iff] at hv hc
  refine (Memory.readSeq_eq_some_iff _ _ _ _).2 ⟨by rw [List.length_append, hv.1, hc.1]; omega, fun i hi => ?_⟩
  by_cases h : i < 16
  · rw [hv.2 i h, List.getElem?_append_left (by rw [hv.1]; exact h)]
  · have := hc.2 (i - 16) (by omega)
    rw [show 0 + i = 16 + (i - 16) by omega, this, List.getElem?_append_right (by rw [hv.1]; omega), hv.1]

/-- The parts of a content that starts with a block. -/
theorem readSeq_of_content_append {v : Block} {c : List Byte} (h : content s = some (v.bytes ++ c)) :
    16 ≤ s.len ∧ s.len - 16 = c.length ∧ Memory.readSeq s.buf 0 16 = some v.bytes ∧
      Memory.readSeq s.buf 16 c.length = some c := by
  have hl := content_length h
  rw [List.length_append, Block.bytes_length] at hl
  have h0 := Memory.readSeq_part h 0 16 (by omega)
  have h1 := Memory.readSeq_part h 16 c.length (by omega)
  refine ⟨by omega, by omega, ?_, ?_⟩
  · rwa [List.drop_zero, List.take_left' (Block.bytes_length v)] at h0
  · rwa [List.drop_left' (Block.bytes_length v), List.take_length] at h1

theorem execFwdec_eq_next :
    exec .fwdec s = .next t ↔
      (s.status.keyv = false ∧ t = ended .noOperand s) ∨
      (s.status.keyv = true ∧ s.len < 16 ∧ t = ended .tooShort s) ∨
      (s.status.keyv = true ∧ 16 ≤ s.len ∧ cipherLengthOk (s.len - 16) = false ∧
        (∃ v : Block, Memory.readSeq s.buf 0 16 = some v.bytes) ∧ t = ended .invalidLength s) ∨
      (s.status.keyv = true ∧ cipherLengthOk (s.len - 16) = true ∧
        ∃ (v : Block) (c : List Byte), content s = some (v.bytes ++ c) ∧
          ((decryptBlock s.key v c = none ∧ t = ended .badPaddingOrKey s) ∨
            ∃ p, decryptBlock s.key v c = some p ∧ s.params.fits p.length = true ∧
              t = ended .ok (setIv v (holding p s)))) := by
  simp only [exec, execFwdec, check_eq_next, hasOperands, blockOperand_eq_next, memRead_eq_next,
    decide_eq_true_eq, decide_eq_false_iff_not, Nat.not_le]
  constructor
  · rintro (⟨h, ⟨hl, -, v, hv, ⟨hk, -, c, hc, e⟩ | ⟨hk, e⟩⟩ | ⟨hl, e⟩⟩ | ⟨h, e⟩)
    · refine .inr (.inr (.inr ⟨h, hk, v, c, content_split hl hv hc, ?_⟩))
      split at e
      · rename_i hn; cases e; exact .inl ⟨hn, rfl⟩
      · rename_i p hp
        simp only [bufResult_eq_next, succeed, Host.Outcome.next.injEq] at e
        exact .inr ⟨p, hp, e.1, e.2.symm⟩
    · exact .inr (.inr (.inl ⟨h, hl, hk, ⟨v, hv⟩, e⟩))
    · exact .inr (.inl ⟨h, hl, e⟩)
    · exact .inl ⟨h, e⟩
  · rintro (⟨h, e⟩ | ⟨h, hl, e⟩ | ⟨h, hl, hk, ⟨v, hv⟩, e⟩ | ⟨h, hk, v, c, hc, e⟩)
    · exact .inr ⟨h, e⟩
    · exact .inl ⟨h, .inr ⟨hl, e⟩⟩
    · exact .inl ⟨h, .inl ⟨hl, by omega, v, hv, .inr ⟨hk, e⟩⟩⟩
    · obtain ⟨hl, hcl, hv, hcs⟩ := readSeq_of_content_append hc
      refine .inl ⟨h, .inl ⟨hl, by omega, v, hv, .inl ⟨hk, by omega, c, by rw [hcl]; exact hcs, ?_⟩⟩⟩
      rcases e with ⟨hn, rfl⟩ | ⟨p, hp, hf, rfl⟩
      · simp [hn, raiseErr]
      · simp [hp, bufResult_eq_next, succeed, hf]

/-- Everything a next state of any operation can be: the state itself, waiting for the RNG; the state
with ERR, BUSY and DONE written by an error; or a completion without one, which has taken exactly the
draw it needed. -/
theorem exec_next_cases {i : Instr} (he : exec i s = .next t) :
    (takesDraw i s = true ∧ s.rng = [] ∧ t = s) ∨
    (takesDraw i s = false ∧ t.err ≠ .ok ∧ t.err ≠ .illegalCmd ∧ t = ended t.err s) ∨
    (t.err = .ok ∧ t.status.busy = false ∧ t.status.done = true ∧
      ((takesDraw i s = true ∧ (i = .ivgen ∨ i = .fwenc) ∧ s.rng = t.iv :: t.rng) ∨
        (takesDraw i s = false ∧ i ≠ .ivgen ∧ i ≠ .fwenc ∧ t.rng = s.rng))) := by
  cases i
  · rcases execFwdec_eq_next.1 he with ⟨_, rfl⟩ | ⟨_, _, rfl⟩ | ⟨_, _, _, _, rfl⟩ |
      ⟨_, _, v, c, _, ⟨_, rfl⟩ | ⟨p, _, _, rfl⟩⟩ <;> simp [takesDraw]
  · rcases execFwenc_eq_next.1 he with ⟨_, rfl⟩ | ⟨_, _, rfl⟩ | ⟨_, _, _, rfl⟩ |
      ⟨_, _, r, rest, p, _, _, _, rfl⟩ <;> simp_all [takesDraw, hasOperands]
  · rcases execCbcdec_eq_next.1 he with ⟨_, rfl⟩ | ⟨_, _, rfl⟩ | ⟨_, _, c, _, ⟨_, rfl⟩ | ⟨p, _, _, rfl⟩⟩ <;>
      simp [takesDraw]
  · rcases execCbcenc_eq_next.1 he with ⟨_, rfl⟩ | ⟨_, _, rfl⟩ | ⟨_, _, p, _, _, rfl⟩ <;> simp [takesDraw]
  · rcases execKdf_eq_next.1 he with ⟨_, rfl⟩ | ⟨_, rfl⟩ <;> simp [takesDraw]
  · rcases execIvgen_eq_next.1 he with ⟨_, rfl⟩ | ⟨r, rest, _, rfl⟩ <;> simp_all [takesDraw]
  · obtain ⟨p, _, _, rfl⟩ := execXordec_eq_next.1 he
    simp [takesDraw]

/-- What every operation leaves alone, whatever it answers (R42): KEY, TOK, CMD, the flags of KEY and
TOK, the parameters and the host's side. -/
theorem exec_keeps {i : Instr} (he : exec i s = .next t) :
    t.key = s.key ∧ t.tok = s.tok ∧ t.cmd = s.cmd ∧ t.status.keyv = s.status.keyv ∧
      t.status.tokv = s.status.tokv ∧ t.params = s.params ∧ t.agenda = s.agenda ∧
      t.readings = s.readings ∧ t.fresh = s.fresh := by
  cases i
  · rcases execFwdec_eq_next.1 he with ⟨_, rfl⟩ | ⟨_, _, rfl⟩ | ⟨_, _, _, _, rfl⟩ |
      ⟨_, _, v, c, _, ⟨_, rfl⟩ | ⟨p, _, _, rfl⟩⟩ <;> simp
  · rcases execFwenc_eq_next.1 he with ⟨_, rfl⟩ | ⟨_, _, rfl⟩ | ⟨_, _, _, rfl⟩ |
      ⟨_, _, r, rest, p, _, _, _, rfl⟩ <;> simp
  · rcases execCbcdec_eq_next.1 he with ⟨_, rfl⟩ | ⟨_, _, rfl⟩ | ⟨_, _, c, _, ⟨_, rfl⟩ | ⟨p, _, _, rfl⟩⟩ <;> simp
  · rcases execCbcenc_eq_next.1 he with ⟨_, rfl⟩ | ⟨_, _, rfl⟩ | ⟨_, _, p, _, _, rfl⟩ <;> simp
  · rcases execKdf_eq_next.1 he with ⟨_, rfl⟩ | ⟨_, rfl⟩ <;> simp
  · rcases execIvgen_eq_next.1 he with ⟨_, rfl⟩ | ⟨r, rest, _, rfl⟩ <;> simp
  · obtain ⟨p, _, _, rfl⟩ := execXordec_eq_next.1 he
    simp

end Sys2Proof.Machine
end

