-- ==== Sys2Proof/Laws/Coherent.lean ====
section
/-!
SUPPORT. Laws/Coherent.lean: what the block's states give a proof (BUF readable below LEN and empty above
it, ERR and DONE at 0 while an operation is in flight), and everything one move of an agent can be.
-/

namespace Sys2Proof.Machine

variable {s t : State}

/-- The buffer's bytes stand at exactly the addresses from 0 up to LEN. -/
theorem coherent_addresses (h : Coherent s) : s.buf.map Prod.fst = List.range' 0 s.len := by
  rw [← List.range_eq_range']; exact h.2.1

/-- The buffer is in canonical form. -/
theorem coherent_wf (h : Coherent s) : Memory.wf s.buf = true :=
  Memory.risingFrom_of_addresses (coherent_addresses h)

/-- No byte from LEN up has a value (R54). -/
theorem coherent_read_above (h : Coherent s) {a : Nat} (ha : s.len ≤ a) : Memory.read s.buf a = none := by
  have hr := Memory.read_of_addresses (coherent_addresses h) a
  cases hx : Memory.read s.buf a with
  | none => rfl
  | some v => rw [hx] at hr; have := hr.1 rfl; omega

/-- Every byte below LEN has a value (R26). -/
theorem coherent_content (h : Coherent s) : ∃ p, content s = some p := by
  have hr := Memory.read_of_addresses (coherent_addresses h)
  have key : ∀ n a, a + n ≤ s.len → ∃ p, Memory.readSeq s.buf a n = some p := by
    intro n
    induction n with
    | zero => exact fun a _ => ⟨[], rfl⟩
    | succ n ih =>
      intro a ha
      obtain ⟨p, hp⟩ := ih (a + 1) (by omega)
      have hs := (hr a).2 (by omega)
      obtain ⟨b, hb⟩ := Option.isSome_iff_exists.1 hs
      exact ⟨b :: p, by simp [Memory.readSeq, hb, hp]⟩
  exact key s.len 0 (by omega)

/-- With an operation in flight ERR and DONE are 0 (R205, R264). -/
theorem coherent_busy (h : Coherent s) (hb : s.status.busy = true) : s.err = .ok ∧ s.status.done = false := by
  have hd : s.status.done = false := by simpa [hb] using h.2.2.2.1
  exact ⟨h.2.2.2.2.1 hd, hd⟩

/-- The moves still to come are no part of the block's state. -/
theorem coherent_agenda (l : List Turn) : Coherent { s with agenda := l } ↔ Coherent s := Iff.rfl

/-- What the RNG has given is no part of the block's state. -/
theorem coherent_answerWith (r : Block) : Coherent (answerWith r s) ↔ Coherent s := Iff.rfl

/-- What the RNG has given and the moves to come have no part in whether a draw is asked for. -/
theorem asksForDraw_congr (l : List Turn) (q : List Block) :
    asksForDraw { s with agenda := l, rng := q } = asksForDraw s := rfl

/-- An operation whose request is answered does not wait. -/
@[simp] theorem waitsForRng_answerWith (r : Block) : waitsForRng (answerWith r s) = false := by
  have h : asksForDraw (answerWith r s) = asksForDraw s := rfl
  unfold waitsForRng
  rw [h]
  cases hd : asksForDraw s <;> simp [hd]

/-- An operation in flight asks for a draw exactly when it takes one. -/
theorem asksForDraw_of_decode {i : Instr} (hb : s.status.busy = true) (hd : decode s.cmd = .ok i) :
    asksForDraw s = takesDraw i s := by
  simp [asksForDraw, hb, hd]

/-- A byte selects an operation or does not. -/
theorem decode_cases (b : Byte) : (∃ i, decode b = .ok i) ∨ ∃ e, decode b = .error e := by
  cases decode b <;> simp

/-- The bytes that select an operation are the legal ones (R74). -/
theorem legalCommand_iff (b : Byte) : legalCommand b = true ↔ ∃ i, decode b = .ok i := by
  have key : ∀ b : Byte, legalCommand b = (match decode b with | .ok _ => true | .error _ => false) := by
    decide +kernel
  rw [key b]; cases decode b <;> simp

/-- The CORE's move: nothing while idle; an operation; or ILLEGAL_CMD (R210, R211). -/
theorem coreTurn_cases (h : coreTurn s = .next t) :
    (s.status.busy = false ∧ t = s) ∨
    (s.status.busy = true ∧ ∃ i, decode s.cmd = .ok i ∧ exec i s = .next t) ∨
    (s.status.busy = true ∧ legalCommand s.cmd = false ∧ t = ended .illegalCmd s) := by
  unfold coreTurn runCommand at h
  split at h
  · rename_i hb
    rcases decode_cases s.cmd with ⟨i, hd⟩ | ⟨e, hd⟩ <;> simp only [hd] at h
    · exact .inr (.inl ⟨hb, i, hd, h⟩)
    · refine .inr (.inr ⟨hb, ?_, by cases h; rfl⟩)
      rw [← Bool.not_eq_true, legalCommand_iff]
      simp [hd]
  · cases h; exact .inl ⟨eq_false_of_ne_true ‹_›, rfl⟩

/-- The fair move: the RNG's answer where one is owed, else the CORE's move (R276). -/
theorem fairTurn_cases (h : fairTurn s = .next t) :
    (waitsForRng s = true ∧ t = rngAnswers s) ∨ (waitsForRng s = false ∧ coreTurn s = .next t) := by
  unfold fairTurn at h
  split at h
  · cases h; exact .inl ⟨‹_›, rfl⟩
  · exact .inr ⟨eq_false_of_ne_true ‹_›, h⟩

/-- Everything one step can be, by the move it makes. -/
theorem step_cases (h : step s = .next t) :
    (s.agenda = [] ∧ fairTurn s = .next t) ∨
    (∃ a rest, s.agenda = .host a :: rest ∧ hostAct a { s with agenda := rest } = .next t) ∨
    (∃ rest, s.agenda = .wait :: rest ∧ s.status.done = true ∧ t = hostRdstat { s with agenda := rest }) ∨
    (∃ rest, s.agenda = .wait :: rest ∧ s.status.done = false ∧ fairTurn s = .next t) ∨
    (∃ rest, s.agenda = .core :: rest ∧ coreTurn { s with agenda := rest } = .next t) ∨
    (∃ r rest, s.agenda = .coreDraw r :: rest ∧ coreTurn (answerWith r { s with agenda := rest }) = .next t) ∨
    (∃ r rest, s.agenda = .rng r :: rest ∧ t = rngTurn r { s with agenda := rest }) := by
  unfold step takeTurn at h
  split at h
  · exact .inl ⟨‹_›, h⟩
  · exact .inr (.inl ⟨_, _, ‹_›, h⟩)
  · split at h
    · cases h; exact .inr (.inr (.inl ⟨_, ‹_›, ‹_›, rfl⟩))
    · exact .inr (.inr (.inr (.inl ⟨_, ‹_›, eq_false_of_ne_true ‹_›, h⟩)))
  · exact .inr (.inr (.inr (.inr (.inl ⟨_, ‹_›, h⟩))))
  · exact .inr (.inr (.inr (.inr (.inr (.inl ⟨_, _, ‹_›, h⟩)))))
  · cases h; exact .inr (.inr (.inr (.inr (.inr (.inr ⟨_, _, ‹_›, rfl⟩)))))

end Sys2Proof.Machine
end

