-- ==== Sys2Proof/Laws/Engine.lean ====
section
/-!
SUPPORT. Laws/Engine.lean: blocks and bytes, and the lengths the padding and the CBC passes give.
-/

namespace Sys2Proof.Machine

@[simp] theorem toBlocks_cons (b : Block) (l : List Byte) : toBlocks (b.bytes ++ l) = b :: toBlocks l := rfl

@[simp] theorem toBlocks_ofBlocks (bs : List Block) : toBlocks (ofBlocks bs) = bs := by
  induction bs with
  | nil => rfl
  | cons b bs ih => simp [ofBlocks, ih]

/-- Sixteen or more bytes start with a block. -/
theorem exists_block_append {l : List Byte} (h : 16 ≤ l.length) :
    ∃ (b : Block) (r : List Byte), l = b.bytes ++ r := by
  match l, h with
  | x0 :: x1 :: x2 :: x3 :: x4 :: x5 :: x6 :: x7 :: x8 :: x9 :: x10 :: x11 :: x12 :: x13 :: x14 :: x15 :: r, _ =>
    exact ⟨⟨⟨x0, x1, x2, x3⟩, ⟨x4, x5, x6, x7⟩, ⟨x8, x9, x10, x11⟩, ⟨x12, x13, x14, x15⟩⟩, r, rfl⟩

theorem ofBlocks_length (bs : List Block) : (ofBlocks bs).length = 16 * bs.length := by
  induction bs with
  | nil => rfl
  | cons b bs ih => simp only [ofBlocks, List.length_append, ih, Block.bytes_length, List.length_cons]; omega

/-- A sequence of whole blocks is made of its blocks. -/
theorem exists_blocks {l : List Byte} (h : l.length % 16 = 0) : ∃ bs : List Block, l = ofBlocks bs := by
  induction hn : l.length using Nat.strongRecOn generalizing l with
  | _ n ih =>
    by_cases h0 : l = []
    · exact ⟨[], by simp [h0, ofBlocks]⟩
    · have hpos : 0 < l.length := List.length_pos_iff.2 h0
      obtain ⟨b, r, rfl⟩ := exists_block_append (l := l) (by omega)
      rw [List.length_append, Block.bytes_length] at *
      obtain ⟨bs, rfl⟩ := ih r.length (by omega) (by omega) rfl
      exact ⟨b :: bs, rfl⟩

@[simp] theorem cbcEncBlocks_length (k : Block) (ms : List Block) : ∀ v, (cbcEncBlocks k v ms).length = ms.length := by
  induction ms with
  | nil => intro v; rfl
  | cons m ms ih => intro v; simp [cbcEncBlocks, ih]

@[simp] theorem cbcDecBlocks_length (k : Block) (cs : List Block) : ∀ v, (cbcDecBlocks k v cs).length = cs.length := by
  induction cs with
  | nil => intro v; rfl
  | cons c cs ih => intro v; simp [cbcDecBlocks, ih]

theorem toBlocks_length {l : List Byte} (h : l.length % 16 = 0) : (toBlocks l).length = l.length / 16 := by
  obtain ⟨bs, rfl⟩ := exists_blocks h
  rw [toBlocks_ofBlocks, ofBlocks_length]; omega

theorem cbcEnc_length {k v : Block} {m : List Byte} (h : m.length % 16 = 0) : (cbcEnc k v m).length = m.length := by
  rw [cbcEnc, ofBlocks_length, cbcEncBlocks_length, toBlocks_length h]; omega

theorem cbcDec_length {k v : Block} {c : List Byte} (h : c.length % 16 = 0) : (cbcDec k v c).length = c.length := by
  rw [cbcDec, ofBlocks_length, cbcDecBlocks_length, toBlocks_length h]; omega

theorem pad_length (p : List Byte) : (pad p).length = cipherLength p.length := by
  simp only [pad, List.length_append, List.length_replicate, padCount, cipherLength]; omega

theorem encryptBlock_length (k v : Block) (p : List Byte) : (encryptBlock k v p).length = cipherLength p.length := by
  rw [encryptBlock, cbcEnc_length, pad_length]
  rw [pad_length, cipherLength]; omega

theorem container_length (k r : Block) (p : List Byte) : (container k r p).length = containerLength p.length := by
  rw [container, List.length_append, encryptBlock_length, Block.bytes_length, containerLength]

/-- What unpadding keeps is a proper part of its input, 1 to 16 bytes shorter on whole blocks. -/
theorem unpad_length {m p : List Byte} (h : unpad m = some p) (hm : m.length % 16 = 0) :
    p.length + 1 ≤ m.length ∧ m.length ≤ p.length + 16 := by
  unfold unpad at h
  split at h
  · cases h
  · rename_i n hn
    have hpos : m ≠ [] := by rintro rfl; simp at hn
    have : 0 < m.length := List.length_pos_iff.2 hpos
    split at h
    · split at h
      · cases h
        rw [List.length_take]; omega
      · cases h
    · cases h

theorem decryptBlock_length {k v : Block} {c p : List Byte} (h : decryptBlock k v c = some p)
    (hc : c.length % 16 = 0) : p.length + 1 ≤ c.length ∧ c.length ≤ p.length + 16 := by
  have := unpad_length h (by rw [cbcDec_length hc]; exact hc)
  rwa [cbcDec_length hc] at this

theorem xorDecodeFrom_length (bs : List Byte) : ∀ c, (xorDecodeFrom c bs).length = bs.length := by
  induction bs with
  | nil => intro c; rfl
  | cons b bs ih => intro c; simp [xorDecodeFrom, ih]

theorem cipherLengthOk_iff {n : Nat} : cipherLengthOk n = true ↔ n ≠ 0 ∧ n % 16 = 0 := by
  simp [cipherLengthOk]

theorem cipherLengthOk_eq_false {n : Nat} : cipherLengthOk n = false ↔ n = 0 ∨ n % 16 ≠ 0 := by
  simp only [cipherLengthOk, Bool.and_eq_false_iff, decide_eq_false_iff_not]; omega

end Sys2Proof.Machine
end

