-- ==== Sys2Proof/Laws/PerInstr.lean ====
section
/-!
SUPPORT. Laws/PerInstr.lean: what holds of every operation as syntax, one lemma per constructor: its
command byte is legal, within the seven of R71, and decodes to it.
-/

namespace Sys2Proof

/-- The command byte of an operation is legal (R74), is one of the seven (R71), decodes to it, and is
read from the opcode table's bits as it. -/
def Laws.EncodeRoundTrip.Statement (i : Instr) : Prop :=
  i.wf = true ∧ legalCommand (encode i) = true ∧ (encode i).toNat < 7 ∧ decode (encode i) = .ok i ∧
    decodeTableWord 8 (encode i).toNat = some i

theorem Laws.EncodeRoundTrip.fwdec : Laws.EncodeRoundTrip.Statement .fwdec := by
  unfold Laws.EncodeRoundTrip.Statement; exact ⟨rfl, by decide, by decide, rfl, rfl⟩

theorem Laws.EncodeRoundTrip.fwenc : Laws.EncodeRoundTrip.Statement .fwenc := by
  unfold Laws.EncodeRoundTrip.Statement; exact ⟨rfl, by decide, by decide, rfl, rfl⟩

theorem Laws.EncodeRoundTrip.cbcdec : Laws.EncodeRoundTrip.Statement .cbcdec := by
  unfold Laws.EncodeRoundTrip.Statement; exact ⟨rfl, by decide, by decide, rfl, rfl⟩

theorem Laws.EncodeRoundTrip.cbcenc : Laws.EncodeRoundTrip.Statement .cbcenc := by
  unfold Laws.EncodeRoundTrip.Statement; exact ⟨rfl, by decide, by decide, rfl, rfl⟩

theorem Laws.EncodeRoundTrip.kdf : Laws.EncodeRoundTrip.Statement .kdf := by
  unfold Laws.EncodeRoundTrip.Statement; exact ⟨rfl, by decide, by decide, rfl, rfl⟩

theorem Laws.EncodeRoundTrip.ivgen : Laws.EncodeRoundTrip.Statement .ivgen := by
  unfold Laws.EncodeRoundTrip.Statement; exact ⟨rfl, by decide, by decide, rfl, rfl⟩

theorem Laws.EncodeRoundTrip.xordec : Laws.EncodeRoundTrip.Statement .xordec := by
  unfold Laws.EncodeRoundTrip.Statement; exact ⟨rfl, by decide, by decide, rfl, rfl⟩

end Sys2Proof
end

