-- ==== Sys2Proof/Tests/Slice0.lean ====
section
/-!
SUPPORT. Tests/Slice0.lean: the model's own tests. Every expected value is a worked vector of
95_test_vectors.md (S and V numbers) or a sentence of a rule, named at the test; and, for every statement
that has hypotheses, a state that meets them together (the theorems `test_wit_...`).
-/

namespace Sys2Proof.Tests

open Machine


/-! ## Helpers -/

/-- `n` bytes from a number written in hexadecimal as the spec writes byte strings, first byte first (R8). -/
def hex (n v : Nat) : List Byte := (List.range n).map fun i => BitVec.ofNat 8 (v / 256 ^ (n - 1 - i))

/-- Sixteen bytes from their hexadecimal number. -/
def blk (v : Nat) : Block := (Block.ofList? (hex 16 v)).getD (.fill 0)

/-- Eight bytes from their hexadecimal number. -/
def tok (v : Nat) : Token := (Token.ofList? (hex 8 v)).getD (.fill 0)

/-- The key and the IV of V4 to V12, and the draw of V15 and V21. -/
def keyA : Block := blk 0x2b7e151628aed2a6abf7158809cf4f3c
def ivA : Block := blk 0x000102030405060708090a0b0c0d0e0f
def drawA : Block := blk 0xf0e0d0c0b0a090807060504030201000

/-- The key of V21, the DerivedKey of the all-zero token. -/
def keyB : Block := blk 0x34323435343834423445353135343537

/-- The text "firmware" of V21. -/
def firmware : List Byte := hex 8 0x6669726d77617265

/-- The container of V21 row 2. -/
def containerA : List Byte := hex 32 0xf0e0d0c0b0a090807060504030201000873845490caea7d7d56836717104a470

/-- An idle block with a key and an IV written, holding a byte string, the RNG having one answer. -/
def idle (k : Block) (d : List Byte) : State :=
  holding d { State.reset with key := k, iv := ivA, rng := [drawA],
                               status := ⟨false, false, true, true, false, false⟩ }

/-- An idle block that holds a token. -/
def withTok (v : Nat) : State :=
  { State.reset with tok := tok v, status := { State.reset.status with tokv := true } }

/-- The block with an operation in flight. -/
def fly (i : Instr) (s : State) : State := issued (encode i) s

/-- The same block with a capacity of `c` bytes. -/
def capped (c : Nat) (s : State) : State := { s with params := ⟨some c, none⟩ }

/-- What an outcome is checked on: a next state that passes. -/
def reaches (r : Result) (p : State → Bool) : Bool :=
  match r with
  | .next t => p t
  | .fault _ => false
  | .refused _ => false

/-- An outcome that reaches a state that passes is that state. -/
theorem reaches_next {r : Result} {p : State → Bool} (h : reaches r p = true) : ∃ t, r = .next t ∧ p t = true := by
  cases r with
  | next t => exact ⟨t, rfl, h⟩
  | fault _ => cases h
  | refused _ => cases h

/-- The operation ends with ERR = 0 and the buffer holding `d`. -/
def leaves (r : Result) (d : List Byte) : Bool :=
  reaches r fun t => decide (t.err = .ok) && decide (content t = some d)

/-- The operation ends with an error and the buffer as it was. -/
def ends (r : Result) (e : Err) (s : State) : Bool :=
  reaches r fun t => decide (t = { s with err := e, status := { s.status with busy := false, done := true } })

/-! ## Well-formedness: each check refuses -/

theorem test_wf_wkey_needs_16_bytes : (HostAction.wkey (hex 15 1)).wf ⟨none, none⟩ = false := by decide
theorem test_wf_wiv_needs_16_bytes : (HostAction.wiv (hex 17 1)).wf ⟨none, none⟩ = false := by decide
theorem test_wf_wtok_needs_8_bytes : (HostAction.wtok (hex 7 1)).wf ⟨none, none⟩ = false := by decide
theorem test_wf_ldbuf_within_capacity : (HostAction.ldbuf (hex 33 1)).wf ⟨some 32, none⟩ = false := by decide
theorem test_wf_capacity_at_least_32 : Params.wf ⟨some 31, none⟩ = false := by decide
theorem test_wf_len_wider_than_capacity : Params.wf ⟨some 32, some 5⟩ = false := by decide
theorem test_wf_unbounded_len : Params.wf ⟨none, some 8⟩ = false := by decide
theorem test_wf_accepts : Params.wf ⟨some 32, some 6⟩ = true ∧ (HostAction.ldbuf (hex 32 1)).wf ⟨some 32, none⟩ = true := by
  decide
theorem test_illegal_command_bytes :
    ([0x07, 0x08, 0x0E, 0x10, 0x80, 0x81, 0xFF] : List Byte).all (fun b => !legalCommand b) = true := by decide

/-! ## Decoding: each command byte written out from R70 and R71 (V50) -/

theorem test_decode_fwdec : decode 0b00000000#8 = .ok .fwdec := rfl
theorem test_decode_fwenc : decode 0b00000001#8 = .ok .fwenc := rfl
theorem test_decode_cbcdec : decode 0b00000010#8 = .ok .cbcdec := rfl
theorem test_decode_cbcenc : decode 0b00000011#8 = .ok .cbcenc := rfl
theorem test_decode_kdf : decode 0b00000100#8 = .ok .kdf := rfl
theorem test_decode_ivgen : decode 0b00000101#8 = .ok .ivgen := rfl
theorem test_decode_xordec : decode 0b00000110#8 = .ok .xordec := rfl

/-- R74: 0x07 fails on OPC, 0x0E (OPC 6) and 0x81 (FWENC's low bits) on RSV. -/
theorem test_decode_illegal :
    decode 0b00000111#8 = .error .unassignedOpcode ∧ decode 0b00001110#8 = .error .reservedBitsSet ∧
    decode 0b10000001#8 = .error .reservedBitsSet ∧ decode 0b11111111#8 = .error .reservedBitsSet := by
  refine ⟨rfl, rfl, rfl, rfl⟩

/-- R70, R72: bit 0 encrypts, bit 1 selects the bare engine; a flag that is present encrypts (R78). -/
theorem test_cipher_fields :
    encField (encode .fwenc) = true ∧ rawField (encode .fwenc) = false ∧ encField (encode .cbcdec) = false ∧
    rawField (encode .cbcdec) = true ∧ modeFlagCommand true = 0x01 ∧ modeFlagCommand false = 0x00 := by decide

/-! ## AES-128 (V1 to V3) -/

theorem test_aes_tables : sbox 0x00 = 0x63 ∧ sbox 0x53 = 0xED ∧ sbox 0xFF = 0x16 ∧ invSbox 0x63 = 0x00 ∧
    invSbox 0xED = 0x53 ∧ xtime 0x80 = 0x1B ∧ xtime 0x57 = 0xAE ∧ gfMul 0x57 0x13 = 0xFE := by decide

/-- R93: the tables are inverse to each other. -/
theorem test_aes_boxes_inverse : ∀ a : Byte, invSbox (sbox a) = a := by decide

/-- The inverse in the field, as the 254th power. -/
def gfInv (a : Byte) : Byte :=
  let a2 := gfMul a a
  let a3 := gfMul a2 a
  let a6 := gfMul a3 a3
  let a12 := gfMul a6 a6
  let a15 := gfMul a12 a3
  let a30 := gfMul a15 a15
  let a60 := gfMul a30 a30
  let a120 := gfMul a60 a60
  let a126 := gfMul a120 a6
  let a127 := gfMul a126 a
  gfMul a127 a127

/-- R92: entries of the S-box are the affine images of the inverses in the field, 0 for 0; one entry of
each row of the table. -/
theorem test_aes_sbox_definition : ∀ n : Fin 16, let a : Byte := BitVec.ofNat 8 (17 * n.val)
    (gfMul a (gfInv a) = if a = 0 then 0 else 1) ∧
    sbox a = gfInv a ^^^ (gfInv a).rotateLeft 1 ^^^ (gfInv a).rotateLeft 2 ^^^ (gfInv a).rotateLeft 3 ^^^
      (gfInv a).rotateLeft 4 ^^^ 0x63 := by
  decide +kernel

theorem test_aes_mix_column : mixColumn ⟨0xdb, 0x13, 0x53, 0x45⟩ = ⟨0x8e, 0x4d, 0xa1, 0xbc⟩ ∧
    invMixColumn ⟨0x8e, 0x4d, 0xa1, 0xbc⟩ = ⟨0xdb, 0x13, 0x53, 0x45⟩ := by decide

theorem test_aes_key_expansion : (roundKeys ivA)[0]? = some (blk 0xd6aa74fdd2af72fadaa678f1d6ab76fe) ∧
    (roundKeys ivA)[9]? = some (blk 0x13111d7fe3944a17f307a78b4d2b30c5) ∧
    (roundKeys keyA)[8]? = some (blk 0xac7766f319fadc2128d12941575c006e) := by decide

theorem test_aes_encrypt_v1 : aesE ivA (blk 0x00112233445566778899aabbccddeeff) =
    blk 0x69c4e0d86a7b0430d8cdb78070b4c55a := by decide +kernel

theorem test_aes_decrypt_v1 : aesD ivA (blk 0x69c4e0d86a7b0430d8cdb78070b4c55a) =
    blk 0x00112233445566778899aabbccddeeff := by decide +kernel

theorem test_aes_encrypt_v2 : aesE keyA (blk 0x3243f6a8885a308d313198a2e0370734) =
    blk 0x3925841d02dc09fbdc118597196a0b32 := by decide +kernel

theorem test_aes_corners_v3 : aesE (.fill 0) (.fill 0) = blk 0x66e94bd4ef8a2c3b884cfa59ca342b2e ∧
    aesD (.fill 0xff) (.fill 0xff) = blk 0x179892489fbd2da4e73009226b5756c9 := by decide +kernel

/-! ## One step of each operation -/

/-- V4: two full blocks and a padding block. -/
theorem test_cbcenc_v4 : leaves (exec .cbcenc (fly .cbcenc (idle keyA
      (hex 32 0x6bc1bee22e409f96e93d7e117393172aae2d8a571e03ac9c9eb76fac45af8e51))))
    (hex 48 0x7649abac8119b246cee98e9b12e9197d5086cb9b507219ee95db113a917678b255e21d7100b988ffec32feeafaf23538)
    = true := by decide +kernel

/-- V5: the empty plaintext. -/
theorem test_cbcenc_v5 : leaves (exec .cbcenc (fly .cbcenc (idle keyA [])))
    (hex 16 0xc84af0b613435d5d9182801a9bd9320b) = true := by decide +kernel

/-- V11, row 4: only the final three bytes are checked. -/
theorem test_cbcdec_v11_accepts : leaves (exec .cbcdec (fly .cbcdec (idle keyA
    (hex 16 0xed5ab313511355720f09605d26841523)))) (List.replicate 12 0 ++ [0x02]) = true := by decide +kernel

/-- V11, row 8: `n = 16` but the bytes differ. -/
theorem test_cbcdec_v11_refuses :
    let s := fly .cbcdec (idle keyA (hex 16 0x7ef2561f603a1334479f7ae091505efc))
    ends (exec .cbcdec s) .paddingError s = true := by decide +kernel

/-- V21, row 2: the container, with the draw in IV and taken from the RNG. -/
theorem test_fwenc_v21 : reaches (exec .fwenc (fly .fwenc (idle keyB firmware))) (fun t =>
    decide (content t = some containerA) && decide (t.iv = drawA) && decide (t.rng = []) &&
      decide (t.status = ⟨false, true, true, true, false, false⟩)) = true := by decide +kernel

/-- V27: OVERFLOW at LEN 16 with BUFCAP = 32; no draw is taken and IV stays. -/
theorem test_fwenc_v27 :
    let s := capped 32 (fly .fwenc (idle keyB (hex 16 0)))
    ends (exec .fwenc s) .overflow s = true := by decide

/-- V22, row 2: the container decrypts back, its first 16 bytes left in IV. -/
theorem test_fwdec_v22 : reaches (exec .fwdec (fly .fwdec (idle keyB containerA))) (fun t =>
    decide (content t = some firmware) && decide (t.iv = drawA) && decide (t.len = 8)) = true := by decide +kernel

/-- V25: a wrong key accepted. -/
theorem test_fwdec_v25 : leaves (exec .fwdec (fly .fwdec
      (idle (blk 0x3432343534383442344535313534357a) containerA)))
    (hex 15 0x7481bedd7dfb364de1940fb5c26510) = true := by decide +kernel

/-- V30, row 9: leading zeros are kept. -/
theorem test_kdf_v30 : reaches (exec .kdf (fly .kdf (withTok 0x0f1e2d3c4b5a6978))) (fun t =>
    decide (t.dkey = blk 0x34443542363537373035304233443246) && decide (statusByte t.status = 0x32) &&
      decide (t.key = State.reset.key)) = true := by decide

/-- V31: no token. -/
theorem test_kdf_v31 : ends (exec .kdf (fly .kdf State.reset)) .noOperand (fly .kdf State.reset) = true := by
  decide

/-- V15: STATUS is 0x0A and IV is the draw. -/
theorem test_ivgen_v15 : reaches (exec .ivgen (fly .ivgen { State.reset with rng := [drawA] })) (fun t =>
    decide (statusByte t.status = 0x0A) && decide (t.iv = drawA) && decide (t.err = .ok) &&
      decide (t.len = 0)) = true := by decide

/-- R142: with nothing from the RNG the block stays BUSY and nothing changes. -/
theorem test_ivgen_waits : reaches (exec .ivgen (fly .ivgen State.reset)) (fun t =>
    decide (t = fly .ivgen State.reset)) = true := by decide

/-- V41, row 5. -/
theorem test_xordec_v41 : leaves (exec .xordec (fly .xordec (idle keyA (hex 10 0x00010203040506070809))))
    (hex 10 0x03070b0f0b17131f1317) = true := by decide

/-- V42: the counter restarts at byte 84. -/
theorem test_xordec_v42 : reaches (exec .xordec (fly .xordec (idle keyA (List.replicate 90 0)))) (fun t =>
    decide ((content t).map (List.drop 80) = some (hex 10 0xf3f6f9fc0306090c0f12))) = true := by decide +kernel

/-! ## Host actions, the handshake and the step -/

/-- V51: STATUS after reset, after WKEY, after WKEY, WIV and WTOK, and after an ISSUE. -/
theorem test_status_values : statusByte State.reset.status = 0x00 ∧
    statusByte (hostWkey (hex 16 1) State.reset).status = 0x04 ∧
    statusByte (hostWtok (hex 8 1) (hostWiv (hex 16 1) (hostWkey (hex 16 1) State.reset))).status = 0x1C ∧
    statusByte (hostIssue 0 (hostWkey (hex 16 1) State.reset)).status = 0x05 := by decide

/-- R230: the error codes. -/
theorem test_error_codes : [Err.ok, .tooShort, .invalidLength, .badPaddingOrKey, .paddingError, .illegalCmd,
    .noOperand, .overflow].map errByte = [0, 1, 2, 3, 4, 5, 6, 7] := by decide

/-- V52: a busy block drops WKEY and ISSUE; LDBUF of BUFCAP + 1 bytes is dropped at any time. -/
theorem test_dropped : hostWkey (hex 16 1) (fly .kdf State.reset) = fly .kdf State.reset ∧
    hostIssue 1 (fly .kdf State.reset) = fly .kdf State.reset ∧
    hostLdbuf (hex 33 0) (capped 32 State.reset) = capped 32 State.reset := by decide

/-- R204: LDBUF replaces a longer buffer, and no byte above it keeps a value. -/
theorem test_ldbuf_shortens : (hostLdbuf [0xAA] (idle keyA firmware)).buf = [(0, 0xAA)] := by decide

/-- P4, third line from the end: RDBUF returns the plaintext, and it is what the host has read. -/
theorem test_rdbuf : reaches (hostAct .rdbuf (idle keyA firmware)) (fun t =>
    decide (t.readings = [.buf firmware])) = true := by decide

/-- RESET cancels an operation in flight (R200). -/
theorem test_reset_cancels : let t := hostReset (fly .fwdec (idle keyA firmware))
    statusByte t.status = 0 ∧ t.len = 0 ∧ t.buf = [] ∧ t.cmd = 0 := by decide

/-- R33: the items' numbers. -/
theorem test_item_numbers : [HostItem.cmd, .status, .err, .len, .key, .iv, .tok, .dkey, .buf].map itemNumber =
    [0, 1, 2, 3, 4, 5, 6, 7, 8] := by decide

/-- R245: no action reads KEY, TOK or CMD. -/
theorem test_no_read_of_secrets (a : HostAction) :
    itemRead a ≠ some .key ∧ itemRead a ≠ some .tok ∧ itemRead a ≠ some .cmd := by
  cases a <;> simp [itemRead]

/-- R77: `issue KDF` is the byte 0x04 (P1); `exec draw=...` names the draw its EXEC takes. -/
theorem test_lines : programTurns [.issueOp .kdf, .execDraw drawA, .waitDone] =
    [.host (.issue 0x04), .coreDraw drawA, .wait] := by decide

/-- R77: the draw named for an FWENC that ends with NO_OPERAND is not taken by the IVGEN after it, which takes
the draw its own line names. -/
theorem test_exec_draw_takes_its_own :
    reaches (Sys2Proof.core.run 4 (withProgram [.issueOp .fwenc, .execDraw drawA, .issueOp .ivgen, .execDraw ivA]
      State.reset)) (fun t => decide (t.iv = ivA) && decide (t.rng = []) && t.status.done) = true := by decide

/-- R78: the macro `derive`. -/
theorem test_macro_derive : programTurns (expandMacro (.derive (hex 8 1))) =
    [.host (.wtok (hex 8 1)), .host (.issue 0x04), .wait, .host .rddkey] := by decide

/-- The host's question: a table word placed at the machine's next instruction runs as that instruction. -/
theorem test_withFetchWord : reaches (step (State.reset.withFetchWord 8 0x05)) (fun t =>
    decide (t.status = ⟨false, true, false, true, false, false⟩)) = true := by decide

/-! ## Witnesses: states that meet the hypotheses of the statements -/

theorem test_wit_SevenBytesSelectTheOperations : 7 ≤ (0x07 : Byte).toNat ∧ 7 ≤ (0xFF : Byte).toNat := by decide

theorem test_wit_DecodeAndEncodeAgree : Instr.fwdec.wf = true ∧ decode 0x06 = .ok .xordec := ⟨rfl, rfl⟩

/-- Bytes 0x07, 0x08 and 0xFF, the ends of the two illegal ranges. -/
theorem test_wit_IllegalCommandsAreStoredThenAnswered : ∀ b ∈ ([0x07, 0x08, 0xFF] : List Byte),
    ∃ s : State, s.agenda = .host (.issue b) :: .core :: [] ∧ s.status.busy = false ∧
      (b.extractLsb' 3 5 ≠ 0 ∨ b.extractLsb' 0 3 = 7) := by
  intro b hb
  exact ⟨{ State.reset with agenda := [.host (.issue b), .core] }, rfl, rfl, by revert b; decide⟩

/-- IVGEN takes a draw, KDF does not. -/
theorem test_wit_StepRunsTheDecodedInstruction :
    let s := { fly .ivgen State.reset with rng := [drawA] }
    let u := fly .kdf (withTok 1)
    s.status.busy = true ∧ decode s.cmd = .ok .ivgen ∧ s.agenda = [] ∧ waitsForRng s = false ∧
      ({ s with agenda := [.core] } : State).agenda = .core :: [] ∧
      ({ s with agenda := [.wait] } : State).agenda = .wait :: [] ∧ s.status.done = false ∧
      ({ s with agenda := [.coreDraw ivA] } : State).agenda = .coreDraw ivA :: [] ∧ takesDraw .ivgen s = true ∧
      u.status.busy = true ∧ decode u.cmd = .ok .kdf ∧ takesDraw .kdf u = false := by
  refine ⟨rfl, rfl, rfl, rfl, rfl, rfl, rfl, rfl, rfl, rfl, rfl, rfl⟩

/-- An answer the RNG has given already, and another draw named by the line; an operation that takes none. -/
theorem test_wit_ExecTakesTheDrawItsLineNames :
    let s := { fly .ivgen (idle keyA firmware) with agenda := [.coreDraw ivA] }
    let u := { fly .fwenc (capped 32 (idle keyB firmware)) with agenda := [.coreDraw ivA] }
    let v := { fly .kdf (withTok 1) with agenda := [.coreDraw ivA] }
    InFlight .ivgen s ∧ s.agenda = .coreDraw ivA :: [] ∧ s.rng = [drawA] ∧
      InFlight .fwenc u ∧ u.agenda = .coreDraw ivA :: [] ∧ u.status.keyv = true ∧
      u.params.fits (16 + 16 * (u.len / 16 + 1)) = true ∧ InFlight .kdf v ∧ v.agenda = .coreDraw ivA :: [] := by
  refine ⟨⟨?_, rfl, rfl⟩, rfl, rfl, ⟨?_, rfl, rfl⟩, rfl, rfl, ?_, ⟨?_, rfl, rfl⟩, rfl⟩ <;> decide

theorem test_wit_KdfWritesTheDerivedKey :
    State.reset.status.tokv = false ∧ (withTok 0).status.tokv = true ∧ (0x34 : Byte) ∈ (derive (tok 0)).bytes := by
  decide

theorem test_wit_DeriveIsHexOfTheMaskedToken : 0 < 8 ∧ 7 < 8 ∧ (tok 0xff).bytes[7]? = some 0xff ∧
    (derive (tok 0xff)).bytes[15]? = some 0x38 := by decide

theorem test_wit_DeriveIsInjective : derive (tok 5) = derive (tok 5) := rfl

theorem test_wit_IvgenWritesTheDraw :
    let s := idle keyB firmware
    s.rng = drawA :: [] ∧ content s = some firmware ∧ s.status.keyv = true ∧
      s.params.fits (16 + 16 * (s.len / 16 + 1)) = true := by decide

/-- A capacity met exactly: LEN 31 gives 32 bytes within 32. -/
theorem test_wit_CbcencReplacesTheBuffer :
    let s := capped 32 (idle keyA (hex 31 1))
    content s = some (hex 31 1) ∧ s.status.keyv = true ∧ s.status.ivv = true ∧
      s.params.fits (16 * (s.len / 16 + 1)) = true := by decide

theorem test_wit_CbcdecReplacesTheBuffer :
    let s := idle keyA (hex 16 0xc84af0b613435d5d9182801a9bd9320b)
    content s = some (hex 16 0xc84af0b613435d5d9182801a9bd9320b) ∧ s.status.keyv = true ∧ s.status.ivv = true ∧
      s.len ≠ 0 ∧ s.len % 16 = 0 ∧ s.params.fits s.len = true ∧
      unpad (cbcDec s.key s.iv (hex 16 0xc84af0b613435d5d9182801a9bd9320b)) = some [] := by decide +kernel

theorem test_wit_FwencReplacesTheBuffer :
    let s := capped 32 (idle keyB (hex 15 1))
    content s = some (hex 15 1) ∧ s.status.keyv = true ∧ s.rng = drawA :: [] ∧
      s.params.fits (16 + 16 * (s.len / 16 + 1)) = true := by decide

theorem test_wit_FwdecReplacesTheBuffer :
    let s := idle keyB containerA
    content s = some (drawA.bytes ++ hex 16 0x873845490caea7d7d56836717104a470) ∧ s.status.keyv = true ∧
      s.params.fits s.len = true ∧
      unpad (cbcDec s.key drawA (hex 16 0x873845490caea7d7d56836717104a470)) = some firmware := by decide +kernel

theorem test_wit_XordecMasksTheBufferInPlace :
    content (idle keyA firmware) = some firmware ∧ (idle keyA firmware).params.fits (idle keyA firmware).len = true ∧
      content State.reset = some [] := by decide

theorem test_wit_RegisterOperationsLeaveTheRestAlone :
    (∃ t, exec .kdf (withTok 1) = .next t) ∧ ∃ t, exec .ivgen (idle keyA []) = .next t := ⟨⟨_, rfl⟩, ⟨_, rfl⟩⟩

/-- Each of the five, completing from a state that meets the invariant; and one ending with an error. -/
theorem test_wit_BufferOperationsLeaveTheRestAlone :
    (Coherent (idle keyB firmware) ∧ ∃ t, exec .fwenc (idle keyB firmware) = .next t ∧ decide (Succeeded t) = true) ∧
    (Coherent (idle keyB containerA) ∧ ∃ t, exec .fwdec (idle keyB containerA) = .next t ∧ decide (Succeeded t) = true) ∧
    (∃ t, exec .cbcenc (idle keyB firmware) = .next t ∧ decide (Succeeded t) = true) ∧
    (∃ t, exec .cbcdec (idle keyB firmware) = .next t ∧ decide (t.err = .invalidLength) = true) ∧
    (∃ t, exec .xordec (idle keyB firmware) = .next t ∧ decide (Succeeded t) = true) := by
  refine ⟨⟨by decide +kernel, reaches_next ?_⟩, ⟨by decide +kernel, reaches_next ?_⟩, reaches_next ?_, reaches_next ?_,
    reaches_next ?_⟩ <;> decide +kernel

/-- The byte 0, the least byte not 0 and the greatest. -/
theorem test_wit_SboxIsTheAffineImageOfTheInverse :
    (0 : Byte) = 0 ∧ (0x01 : Byte) ≠ 0 ∧ gfMul 0xFF 0x1C = 1 := by decide

/-- The first and last row and column; word 4, where a round constant enters, word 43, where none does; round
keys 0 and 10; the first and the last of the nine middle rounds. -/
theorem test_wit_roundBounds : 0 < 4 ∧ 3 < 4 ∧ 4 ≤ 4 ∧ 4 < 44 ∧ 43 < 44 ∧ 4 % 4 = 0 ∧ 43 % 4 ≠ 0 ∧ 0 ≤ 10 ∧ 10 ≤ 10 ∧
    1 ≤ 1 ∧ 9 ≤ 9 := by decide

theorem test_wit_PadReachesTheNextBlock : (hex 16 1).length = 16 ∧ (hex 15 1).length = 15 := by decide

theorem test_wit_UnpadAcceptsExactlyValidPadding :
    List.replicate 16 (0x10 : Byte) ≠ [] ∧ (List.replicate 16 (0x10 : Byte)).length % 16 = 0 := by decide

theorem test_wit_CbcPassesChainTheBlocks :
    (hex 32 7).length % 16 = 0 ∧ (∃ b, (toBlocks (hex 32 7))[1]? = some b) ∧ 1 < (hex 32 7).length / 16 := by
  refine ⟨by decide +kernel, ⟨_, rfl⟩, by decide +kernel⟩

theorem test_wit_KeystreamHasPeriod84 : 1 ≤ 84 ∧ 84 ≤ 84 ∧ (keystream 83).toNat = 3 * 84 := by decide +kernel

theorem test_wit_XorDecodeSplitsAtThePeriod : (List.replicate 84 (0 : Byte)).length % 84 = 0 := by decide

theorem test_wit_CbcencLengthLaw :
    InFlight .cbcenc (fly .cbcenc (idle keyA firmware)) ∧
      ∃ t, exec .cbcenc (fly .cbcenc (idle keyA firmware)) = .next t ∧ decide (Succeeded t) = true :=
  ⟨⟨by decide, rfl, rfl⟩, reaches_next (by decide)⟩

theorem test_wit_FwencLengthLaw :
    InFlight .fwenc (fly .fwenc (idle keyB firmware)) ∧
      ∃ t, exec .fwenc (fly .fwenc (idle keyB firmware)) = .next t ∧ decide (Succeeded t) = true :=
  ⟨⟨by decide, rfl, rfl⟩, reaches_next (by decide)⟩

/-- Length 16, a whole padding block added, decrypted back. -/
theorem test_wit_CbcdecUndoesCbcenc :
    InFlight .cbcenc (fly .cbcenc (idle keyA ivA.bytes)) ∧
      ∃ t, exec .cbcenc (fly .cbcenc (idle keyA ivA.bytes)) = .next t ∧ decide (Succeeded t) = true :=
  ⟨⟨by decide, rfl, rfl⟩, reaches_next (by decide)⟩

/-- The empty plaintext, whose container is the least possible. -/
theorem test_wit_FwdecUndoesFwenc :
    InFlight .fwenc (fly .fwenc (idle keyB [])) ∧
      ∃ t, exec .fwenc (fly .fwenc (idle keyB [])) = .next t ∧ decide (Succeeded t) = true :=
  ⟨⟨by decide, rfl, rfl⟩, reaches_next (by decide)⟩

/-- The same key and content under two draws. -/
theorem test_wit_ContainersAreEqualIffTheDrawsAre :
    let s := fly .fwenc (idle keyB firmware)
    let s' := { s with rng := [ivA] }
    InFlight .fwenc s ∧ InFlight .fwenc s' ∧ s.key = s'.key ∧ content s = content s' ∧
      s.rng = drawA :: [] ∧ s'.rng = ivA :: [] ∧
      (∃ t, exec .fwenc s = .next t ∧ decide (Succeeded t) = true) ∧
      ∃ t, exec .fwenc s' = .next t ∧ decide (Succeeded t) = true := by
  refine ⟨⟨by decide, rfl, rfl⟩, ⟨by decide, rfl, rfl⟩, rfl, rfl, rfl, rfl, reaches_next ?_,
    reaches_next ?_⟩ <;> decide

theorem test_wit_XordecIsAnInvolution : InFlight .xordec (fly .xordec (idle keyA firmware)) :=
  ⟨by decide, rfl, rfl⟩

/-- One that succeeds, one that does not. -/
theorem test_wit_ContainerOperationsDoNotReadIv :
    let s := fly .fwenc (idle keyB firmware)
    let u := fly .fwdec (idle keyB firmware)
    InFlight .fwenc s ∧ (∃ t, exec .fwenc s = .next t ∧ decide (Succeeded t) = true) ∧
      InFlight .fwdec u ∧ ∃ t, exec .fwdec u = .next t ∧ decide (¬ Succeeded t) = true := by
  refine ⟨⟨by decide, rfl, rfl⟩, reaches_next ?_, ⟨by decide, rfl, rfl⟩, reaches_next ?_⟩ <;>
    decide

/-- LEN 15 is the last too short, LEN 16 the first INVALID_LENGTH (V23). -/
theorem test_wit_TooShortIsFwdecBelow16 :
    let s := fly .fwdec (idle keyA (hex 15 0))
    let u := fly .fwdec (idle keyA (hex 16 0))
    InFlight .fwdec s ∧ s.status.keyv = true ∧ s.len < 16 ∧ ends (exec .fwdec s) .tooShort s = true ∧
      InFlight .fwdec u ∧ u.status.keyv = true ∧ u.len = 16 ∧ ends (exec .fwdec u) .invalidLength u = true := by
  refine ⟨⟨?_, rfl, rfl⟩, rfl, ?_, ?_, ⟨?_, rfl, rfl⟩, rfl, ?_, ?_⟩ <;> decide

/-- FWDEC at LEN 16 and 17, CBCDEC at LEN 0 and 15 (V12, V23). -/
theorem test_wit_InvalidLengthIsAPartialCiphertext :
    (∀ n ∈ [16, 17], let s := fly .fwdec (idle keyA (hex n 0))
      InFlight .fwdec s ∧ s.status.keyv = true ∧ 16 ≤ s.len ∧ (s.len - 16 = 0 ∨ (s.len - 16) % 16 ≠ 0) ∧
        ends (exec .fwdec s) .invalidLength s = true) ∧
    ∀ n ∈ [0, 15], let s := fly .cbcdec (idle keyA (hex n 0))
      InFlight .cbcdec s ∧ s.status.keyv = true ∧ s.status.ivv = true ∧ (s.len = 0 ∨ s.len % 16 ≠ 0) ∧
        ends (exec .cbcdec s) .invalidLength s = true := by
  simp only [List.forall_mem_cons, List.not_mem_nil, false_imp_iff, implies_true, and_true]
  refine ⟨⟨⟨⟨?_, rfl, rfl⟩, ?_⟩, ⟨⟨?_, rfl, rfl⟩, ?_⟩⟩, ⟨⟨⟨?_, rfl, rfl⟩, ?_⟩, ⟨⟨?_, rfl, rfl⟩, ?_⟩⟩⟩ <;> decide

/-- V23: 32 zero bytes under the key 00010203... . -/
theorem test_wit_BadPaddingOrKeyIsFwdecsPaddingFailure :
    let s := fly .fwdec (idle ivA (hex 32 0))
    InFlight .fwdec s ∧ content s = some ((Block.fill 0).bytes ++ hex 16 0) ∧ s.status.keyv = true ∧
      (hex 16 0).length ≠ 0 ∧ (hex 16 0).length % 16 = 0 ∧ unpad (cbcDec s.key (.fill 0) (hex 16 0)) = none ∧
      ends (exec .fwdec s) .badPaddingOrKey s = true := by
  refine ⟨⟨?_, rfl, rfl⟩, ?_⟩ <;> decide +kernel

/-- V11, row 5: the last byte is 0. -/
theorem test_wit_PaddingErrorIsCbcdecsPaddingFailure :
    let c := hex 16 0x50fe67cc996d32b6da0937e99bafec60
    let s := fly .cbcdec (idle keyA c)
    InFlight .cbcdec s ∧ content s = some c ∧ s.status.keyv = true ∧ s.status.ivv = true ∧ s.len ≠ 0 ∧
      s.len % 16 = 0 ∧ unpad (cbcDec s.key s.iv c) = none ∧ ends (exec .cbcdec s) .paddingError s = true := by
  refine ⟨⟨?_, rfl, rfl⟩, ?_⟩ <;> decide +kernel

/-- V14, V27: nothing written, the key only, and no token. -/
theorem test_wit_NoOperandIsAMissingOperand :
    InFlight .fwdec (fly .fwdec State.reset) ∧ (fly .fwdec State.reset).status.keyv = false ∧
    InFlight .cbcenc (fly .cbcenc (hostWkey (hex 16 1) State.reset)) ∧
    (fly .cbcenc (hostWkey (hex 16 1) State.reset)).status.keyv = true ∧
    (fly .cbcenc (hostWkey (hex 16 1) State.reset)).status.ivv = false ∧
    InFlight .kdf (fly .kdf State.reset) ∧ (fly .kdf State.reset).status.tokv = false := by
  refine ⟨⟨?_, rfl, rfl⟩, rfl, ⟨?_, ?_, rfl⟩, ?_, ?_, ⟨?_, rfl, rfl⟩, rfl⟩ <;> decide

/-- V14, V27: BUFCAP = 32, FWENC at LEN 16, CBCENC at LEN 32. -/
theorem test_wit_OverflowIsAResultThatDoesNotFit :
    let s := capped 32 (fly .fwenc (idle keyB (hex 16 0)))
    let u := capped 32 (fly .cbcenc (idle keyB (hex 32 0)))
    InFlight .fwenc s ∧ s.status.keyv = true ∧ s.params.bufcap = some 32 ∧ 32 < 16 + 16 * (s.len / 16 + 1) ∧
      InFlight .cbcenc u ∧ u.status.keyv = true ∧ u.status.ivv = true ∧ u.params.bufcap = some 32 ∧
      32 < 16 * (u.len / 16 + 1) ∧ (fly .fwenc (idle keyB [])).params.bufcap = none := by
  refine ⟨⟨?_, rfl, rfl⟩, rfl, rfl, ?_, ⟨?_, rfl, rfl⟩, rfl, rfl, rfl, ?_, rfl⟩ <;> decide

/-- An operation's error and an illegal command's; and a step that leaves an operation in flight. -/
theorem test_wit_ErrorsWriteNothingElse :
    (Coherent (fly .fwdec State.reset) ∧ (fly .fwdec State.reset).status.busy = true ∧
      ∃ t, coreTurn (fly .fwdec State.reset) = .next t ∧ decide (t.err = .noOperand) = true) ∧
    (Coherent (issued 0x07 State.reset) ∧ (issued 0x07 State.reset).status.busy = true ∧
      ∃ t, coreTurn (issued 0x07 State.reset) = .next t ∧ decide (t.err = .illegalCmd) = true) ∧
    ∃ t, step { fly .kdf State.reset with agenda := [.host (.wkey (hex 16 1))] } = .next t ∧
      decide (t.status.busy = true) = true := by
  refine ⟨⟨?_, rfl, reaches_next ?_⟩, ⟨?_, rfl, reaches_next ?_⟩, reaches_next ?_⟩ <;> decide

/-- 60_exceptions.md R242: the second failure, from the state the first left (`AFailedCommandFailsAgain`). -/
theorem test_wit_AFailedCommandFailsAgain :
    ∃ t, coreTurn (fly .kdf State.reset) = .next t ∧
      (decide (t.err ≠ .ok) && decide (Coherent (issued t.cmd t))) = true :=
  reaches_next (by decide)

/-- One that draws, one that does not. -/
theorem test_wit_OnlyIvgenAndFwencDraw :
    InFlight .ivgen (fly .ivgen (idle keyA [])) ∧ (∃ t, exec .ivgen (fly .ivgen (idle keyA [])) = .next t) ∧
    InFlight .cbcenc (fly .cbcenc (idle keyA [])) ∧
    ∃ t, exec .cbcenc (fly .cbcenc (idle keyA [])) = .next t ∧ decide (t.rng = [drawA]) = true := by
  refine ⟨⟨by decide, rfl, rfl⟩, ⟨_, rfl⟩, ⟨by decide, rfl, rfl⟩, reaches_next (by decide)⟩

/-- One that waits and one that completes; the same two serve `IssuedOperationsComplete`. -/
theorem test_wit_ExecWaitsForTheRngOrCompletes :
    Coherent (fly .ivgen State.reset) ∧ (fly .ivgen State.reset).status.busy = true ∧
      waitsForRng (fly .ivgen State.reset) = true ∧
      Coherent (fly .kdf State.reset) ∧ (fly .kdf State.reset).status.busy = true ∧
      waitsForRng (fly .kdf State.reset) = false := by decide

theorem test_wit_IssuedOperationsComplete :
    let s := fly .ivgen State.reset
    Coherent s ∧ s.status.busy = true ∧ s.agenda = [] ∧ Coherent { s with agenda := [.wait] } ∧
      reaches (Sys2Proof.core.run 2 s) (fun t => t.status.done) = true := by decide

/-- Lengths 16 and 15, 8 and 7. -/
theorem test_wit_OperandWritesSetRegisterAndFlag :
    State.reset.status.busy = false ∧ (hex 16 1).length = 16 ∧ (hex 15 1).length ≠ 16 ∧ (hex 8 1).length = 8 ∧
      (hex 7 1).length ≠ 8 := by decide

/-- Unbounded; exactly the capacity; one more. -/
theorem test_wit_LdbufLoadsTheBuffer :
    State.reset.status.busy = false ∧ State.reset.params.bufcap = none ∧
      (capped 32 State.reset).params.bufcap = some 32 ∧ (hex 32 1).length ≤ 32 ∧ 32 < (hex 33 1).length := by decide

theorem test_wit_IssueStartsAnOperation : State.reset.status.busy = false := rfl

theorem test_wit_StatusReadsAreAlwaysAllowed :
    Coherent (fly .kdf State.reset) ∧ (fly .kdf State.reset).status.busy = true := by decide

theorem test_wit_ResultReadsReturnTheResult :
    let s := setDkey keyB (idle keyA firmware)
    s.status.busy = false ∧ content s = some firmware ∧ s.status.ivv = true ∧ s.status.dkv = true := by decide

/-- Both flags 0 while BUSY = 0. -/
theorem test_wit_ResultReadsReturnTheResult_unwritten : State.reset.status.busy = false ∧
    State.reset.status.ivv = false ∧ State.reset.status.dkv = false := ⟨rfl, rfl, rfl⟩

theorem test_wit_ABusyBlockDropsHostWrites :
    (fly .kdf State.reset).status.busy = true ∧ (HostAction.wkey (hex 15 1)).wf State.reset.params = false ∧
      (HostAction.ldbuf (hex 33 1)).wf (capped 32 State.reset).params = false := by decide

/-- The invariant holds of a block with everything written, an operation in flight and moves to come. -/
theorem test_wit_EveryStepKeepsTheInvariant :
    let s := { fly .cbcenc (idle keyA firmware) with agenda := [.core, .host .rdbuf], params := ⟨some 64, some 7⟩ }
    Coherent s ∧ ∃ t, step s = .next t ∧ decide (Coherent t) = true := by
  refine ⟨?_, reaches_next ?_⟩ <;> decide

theorem test_wit_NoStepFaults : Coherent (fly .xordec (idle keyA firmware)) := by decide

theorem test_wit_BusyAndDoneMoveByIssueExecReset :
    let s := { State.reset with agenda := [.host (.issue 4)] }
    let u := { fly .kdf State.reset with agenda := [.host .reset] }
    let v := { fly .kdf State.reset with agenda := [.core] }
    Coherent s ∧ s.status.busy = false ∧ s.agenda = .host (.issue 4) :: [] ∧ (∃ t, step s = .next t) ∧
      Coherent u ∧ u.agenda = .host .reset :: [] ∧ (∃ t, step u = .next t) ∧
      Coherent v ∧ v.agenda = .core :: [] ∧ v.status.busy = true ∧ waitsForRng v = false ∧ ∃ t, step v = .next t := by
  refine ⟨by decide, rfl, rfl, ⟨_, rfl⟩, by decide, rfl, ⟨_, rfl⟩, by decide, rfl, rfl, rfl,
    ⟨_, rfl⟩⟩

/-- The CORE with a draw named; the fair move; and a host read, which leaves the pair. -/
theorem test_wit_BusyAndDoneMoveByIssueExecReset_others :
    let s := { fly .ivgen State.reset with agenda := [.coreDraw drawA] }
    let u := { fly .kdf State.reset with agenda := [.host .rdlen] }
    Coherent s ∧ s.agenda = .coreDraw drawA :: [] ∧ s.status.busy = true ∧ (∃ t, step s = .next t) ∧
      Coherent (fly .kdf State.reset) ∧ (∃ t, step (fly .kdf State.reset) = .next t) ∧
      Coherent u ∧ ∃ t, step u = .next t ∧ decide (t.status.busy = true) = true := by
  refine ⟨by decide, rfl, rfl, ⟨_, rfl⟩, by decide, ⟨_, rfl⟩, by decide, reaches_next (by decide)⟩

theorem test_wit_ValidFlagsStayUntilReset :
    let s := { setDkey keyB (idle keyA firmware) with agenda := [.core] }
    (∃ t, step s = .next t) ∧ (∀ rest, s.agenda ≠ .host .reset :: rest) ∧ s.status.keyv = true ∧
      s.status.ivv = true ∧ s.status.dkv = true ∧ (withTok 1).status.tokv = true := by
  refine ⟨⟨_, rfl⟩, ?_, rfl, rfl, rfl, rfl⟩
  intro rest h
  simp at h

/-- A WKEY, a WTOK and a KDF that each change their register. -/
theorem test_wit_RegistersChangeOnlyByTheirWriters :
    let s := { State.reset with agenda := [.host (.wkey (hex 16 1))] }
    let u := { State.reset with agenda := [.host (.wtok (hex 8 1))] }
    let v := { fly .kdf (withTok 1) with agenda := [.core] }
    (∃ t, step s = .next t ∧ decide (t.key ≠ s.key) = true) ∧ (∃ t, step u = .next t ∧ decide (t.tok ≠ u.tok) = true) ∧
      (∃ t, step v = .next t ∧ decide (t.dkey ≠ v.dkey) = true) ∧
      ∀ rest, s.agenda ≠ .host .reset :: rest ∧ u.agenda ≠ .host .reset :: rest ∧ v.agenda ≠ .host .reset :: rest := by
  refine ⟨reaches_next (by decide), reaches_next (by decide), reaches_next (by decide), ?_⟩
  intro rest
  simp

/-- A WIV, an IVGEN and an FWDEC that change IV; an ISSUE that changes CMD; an LDBUF and an XORDEC that change the
buffer; and the RNG's step. -/
theorem test_wit_RegistersChangeOnlyByTheirWriters_others :
    let p (r : Turn) (s : State) (q : State → State → Bool) : Prop :=
      reaches (step { s with agenda := [r] }) (q s) = true ∧ ∀ rest, [r] ≠ Turn.host .reset :: rest
    p (.host (.wiv (hex 16 1))) State.reset (fun s t => decide (t.iv ≠ s.iv)) ∧
      p (.coreDraw drawA) (fly .ivgen State.reset) (fun s t => decide (t.iv ≠ s.iv)) ∧
      p .core (fly .ivgen (idle keyA [])) (fun s t => decide (t.iv ≠ s.iv)) ∧
      p .core (fly .fwdec (idle keyB containerA)) (fun s t => decide (t.iv ≠ s.iv)) ∧
      p (.host (.issue 4)) State.reset (fun s t => decide (t.cmd ≠ s.cmd)) ∧
      p (.host (.ldbuf [7])) State.reset (fun s t => decide (t.buf ≠ s.buf)) ∧
      p .core (fly .xordec (idle keyA firmware)) (fun s t => decide (t.buf ≠ s.buf)) ∧
      p (.rng drawA) State.reset (fun s t => decide (t.rng ≠ s.rng)) := by
  intro p
  have none (r : Turn) (h : r ≠ .host .reset) : ∀ rest, [r] ≠ Turn.host .reset :: rest := by
    rintro rest ⟨⟩
    exact h rfl
  exact ⟨⟨by decide, none _ (by decide)⟩, ⟨by decide, none _ (by decide)⟩, ⟨by decide, none _ (by decide)⟩,
    ⟨by decide +kernel, none _ (by decide)⟩, ⟨by decide, none _ (by decide)⟩, ⟨by decide, none _ (by decide)⟩,
    ⟨by decide, none _ (by decide)⟩, ⟨by decide, none _ (by decide)⟩⟩

/-- Two different states that the flags make alike; the premises on RDIV and RDDKEY met by another move, and
by an RDIV with IVV = 1. -/
theorem test_wit_UnwrittenRegistersReachNothing :
    vouched State.reset = vouched { State.reset with key := keyA, tok := tok 7 } ∧
      State.reset ≠ { State.reset with key := keyA, tok := tok 7 } ∧
      (∀ rest, State.reset.agenda ≠ .host .rdiv :: rest ∧ State.reset.agenda ≠ .host .rddkey :: rest) ∧
      ({ idle keyA [] with agenda := [.host .rdiv] } : State).status.ivv = true := by
  refine ⟨by decide, by decide, ?_, rfl⟩
  intro rest
  simp [State.reset]

end Sys2Proof.Tests
end

/-!
The encoding of commands: a command byte's two fields as numbers, which bytes select no operation, and
what the block does with such a byte (30_encoding.md rules R70, R71, R74).
-/

namespace Sys2Proof

/-! ## The fields of a command byte -/

@[simp] theorem rsvField_toNat (b : Byte) : (rsvField b).toNat = b.toNat / 8 := by
  rw [rsvField, BitVec.extractLsb'_toNat, Nat.shiftRight_eq_div_pow]
  exact Nat.mod_eq_of_lt (by omega)

@[simp] theorem opcField_toNat (b : Byte) : (opcField b).toNat = b.toNat % 8 := by
  rw [opcField, BitVec.extractLsb'_toNat, Nat.shiftRight_zero]

/-- `RSV` is not 0 or `OPC` is 7 exactly in the bytes 0x07 to 0xFF (R74). -/
theorem illegal_fields_iff (b : Byte) : (rsvField b ≠ 0 ∨ opcField b = 7) ↔ 7 ≤ b.toNat := by
  have hrsv : rsvField b = 0 ↔ b.toNat / 8 = 0 := by rw [← BitVec.toNat_inj, rsvField_toNat]; rfl
  have hopc : opcField b = 7 ↔ b.toNat % 8 = 7 := by rw [← BitVec.toNat_inj, opcField_toNat]; rfl
  rw [ne_eq, hrsv, hopc]
  omega

/-! ## The bytes that select no operation -/

theorem legalCommand_eq_false_iff (b : Byte) : legalCommand b = false ↔ 7 ≤ b.toNat := by
  simp only [legalCommand, Bool.and_eq_false_iff, decide_eq_false_iff_not]
  omega

theorem decode_eq_error_iff (b : Byte) : (∃ e, decode b = .error e) ↔ 7 ≤ b.toNat := by
  rw [← legalCommand_eq_false_iff, ← Bool.not_eq_true, Machine.legalCommand_iff]
  cases decode b <;> simp

/-- All 256 bytes but the seven of R71. -/
theorem illegal_bytes_count :
    ((List.range 256).filter fun n => !legalCommand (BitVec.ofNat 8 n)).length = 249 := by
  decide +kernel

end Sys2Proof

namespace Sys2Proof.Machine

variable {s : State}

/-! ## An ISSUE and the CORE's answer -/

/-- The step that takes a host action off the agenda. -/
theorem step_of_agenda_host {a : HostAction} {rest : List Turn} (h : s.agenda = .host a :: rest) :
    step s = hostAct a { s with agenda := rest } := by
  simp only [step, takeTurn, h]

/-- The step that takes a move of the CORE off the agenda. -/
theorem step_of_agenda_core {rest : List Turn} (h : s.agenda = .core :: rest) :
    step s = coreTurn { s with agenda := rest } := by
  simp only [step, takeTurn, h]

/-- An idle block accepts any byte (R205). -/
theorem hostAct_issue_of_idle (b : Byte) (h : s.status.busy = false) :
    hostAct (.issue b) s = .next (issued b s) := by
  simp [hostAct, hostIssue, h]

/-- With a byte in flight that selects no operation, the CORE's move writes ERR, BUSY and DONE only (R74). -/
theorem coreTurn_of_illegal (hb : s.status.busy = true) (hc : 7 ≤ s.cmd.toNat) :
    coreTurn s = .next (ended .illegalCmd s) := by
  obtain ⟨e, he⟩ := (decode_eq_error_iff s.cmd).2 hc
  simp [coreTurn, hb, runCommand, he, raiseErr]

/-- ISSUE of an illegal byte while idle, then the CORE's move. -/
theorem step_issue_then_core_of_illegal {b : Byte} {rest : List Turn}
    (ha : s.agenda = .host (.issue b) :: .core :: rest) (hi : s.status.busy = false) (hb : 7 ≤ b.toNat) :
    step s = .next (issued b { s with agenda := .core :: rest }) ∧
      step (issued b { s with agenda := .core :: rest }) =
        .next (ended .illegalCmd (issued b { s with agenda := rest })) := by
  constructor
  · rw [step_of_agenda_host ha]
    exact hostAct_issue_of_idle b hi
  · rw [step_of_agenda_core rfl]
    exact coreTurn_of_illegal rfl hb

end Sys2Proof.Machine

namespace Sys2Proof

/-! ## The obligations -/

/-- Settles O3: ISSUE of an idle block takes any byte, and `decode` refuses exactly the bytes from 7 up. -/
theorem illegalCommandsAreStoredThenAnswered : Obligations.IllegalCommandsAreStoredThenAnswered := by
  refine ⟨fun s b rest ha hi hf => ?_, illegal_bytes_count, fun b => ?_⟩
  · obtain ⟨hissue, hcore⟩ :=
      Machine.step_issue_then_core_of_illegal ha hi ((illegal_fields_iff b).1 hf)
    exact ⟨_, hissue, rfl, rfl, hcore⟩
  · exact (legalCommand_eq_false_iff b).trans (illegal_fields_iff b).symm

/-- Settles O1: the seven rows of R71 by evaluation, the other bytes by `decode_eq_error_iff`. -/
theorem sevenBytesSelectTheOperations : Obligations.SevenBytesSelectTheOperations :=
  ⟨rfl, rfl, rfl, rfl, rfl, rfl, rfl, fun b hb => (decode_eq_error_iff b).2 hb⟩

end Sys2Proof

/-!
AES-128: the field GF(2^8), the two S-box tables, the round transformations and their inverses, the key
expansion and the two ciphers (40_aes128.md rules R90 to R103).
-/

namespace Sys2Proof.Machine

/-! ## GF(2^8) (R91) -/

theorem byte_xor_left_comm (a b c : Byte) : a ^^^ (b ^^^ c) = b ^^^ (a ^^^ c) := by
  rw [← BitVec.xor_assoc, BitVec.xor_comm a, BitVec.xor_assoc]

@[simp] theorem byte_xor_cancel_left (a b : Byte) : a ^^^ (a ^^^ b) = b := by
  rw [← BitVec.xor_assoc, BitVec.xor_self, BitVec.zero_xor]

@[simp] theorem byte_xor_cancel_right (a b : Byte) : a ^^^ b ^^^ b = a := by
  rw [BitVec.xor_assoc, BitVec.xor_self, BitVec.xor_zero]

/-- Doubling is linear: the reduction depends on the top bit alone. -/
theorem xtime_xor (a b : Byte) : xtime (a ^^^ b) = xtime a ^^^ xtime b := by
  simp only [xtime, BitVec.getLsbD_xor, BitVec.shiftLeft_xor_distrib]
  cases a.getLsbD 7 <;> cases b.getLsbD 7 <;>
    simp [BitVec.xor_assoc, BitVec.xor_comm, byte_xor_left_comm]

theorem xtime_toNat (a : Byte) :
    (xtime a).toNat = if a.toNat < 128 then 2 * a.toNat else (2 * a.toNat) ^^^ 0x11B := by
  revert a
  decide +kernel

theorem xtimes_eq_iterate (n : Nat) (a : Byte) : xtimes n a = xtime^[n] a := by
  induction n with
  | zero => rfl
  | succ n ih => rw [xtimes, ih, Function.iterate_succ_apply']

/-- The product as the xor of the doublings at the bits set. -/
theorem gfMul_eq_foldl_filter (a b : Byte) : gfMul a b =
    (((List.range 8).filter fun i => b.getLsbD i).map fun i => xtime^[i] a).foldl (· ^^^ ·) 0 := by
  rw [gfMul, List.foldl_map, List.foldl_filter]
  simp only [xtimes_eq_iterate]

/-! The fixed multiples the cipher uses are products. -/

theorem gfMul_two (a : Byte) : gfMul a 2 = xtime a := BitVec.zero_xor

theorem gfMul_three (a : Byte) : gfMul a 3 = mul3 a := by
  simp [gfMul, List.range_succ, xtimes, mul3, BitVec.xor_comm]

theorem gfMul_nine (a : Byte) : gfMul a 9 = mul9 a := by
  simp [gfMul, List.range_succ, xtimes, mul9, BitVec.xor_comm]

theorem gfMul_eleven (a : Byte) : gfMul a 11 = mul11 a := by
  simp [gfMul, List.range_succ, xtimes, mul11, BitVec.xor_assoc, BitVec.xor_comm]

theorem gfMul_thirteen (a : Byte) : gfMul a 13 = mul13 a := by
  simp [gfMul, List.range_succ, xtimes, mul13, BitVec.xor_assoc, BitVec.xor_comm]

theorem gfMul_fourteen (a : Byte) : gfMul a 14 = mul14 a := by
  simp [gfMul, List.range_succ, xtimes, mul14, BitVec.xor_assoc, BitVec.xor_comm]

/-! ## The S-box (R92, R93) -/

/-- The affine map of R92: a byte xored with four of its rotations and 0x63. -/
def sboxAffine (b : Byte) : Byte :=
  b ^^^ b.rotateLeft 1 ^^^ b.rotateLeft 2 ^^^ b.rotateLeft 3 ^^^ b.rotateLeft 4 ^^^ 0x63

/-- The inverse of the affine map: 0x05 and rotations by 1, 3 and 6. -/
def sboxUnaffine (y : Byte) : Byte :=
  y.rotateLeft 1 ^^^ y.rotateLeft 3 ^^^ y.rotateLeft 6 ^^^ 0x05

theorem sboxAffine_sboxUnaffine (y : Byte) : sboxAffine (sboxUnaffine y) = y := by
  revert y
  decide +kernel

/-- Undoing the affine map on an entry of the table gives the inverse of its index. -/
theorem gfMul_sboxUnaffine_sbox {a : Byte} (h : a ≠ 0) : gfMul a (sboxUnaffine (sbox a)) = 1 := by
  revert a
  decide +kernel

/-- The table read at 0 is the affine image of 0. -/
theorem sboxUnaffine_sbox_zero : sboxUnaffine (sbox 0) = 0 := by decide

@[simp] theorem invSbox_sbox (a : Byte) : invSbox (sbox a) = a := by
  revert a
  decide +kernel

@[simp] theorem sbox_invSbox (a : Byte) : sbox (invSbox a) = a := by
  revert a
  decide +kernel

/-! ## MixColumns and its inverse on one column (R96, R97) -/

/-- MixColumns as the product with the matrix of R96. -/
theorem mixColumn_eq_gfMul (a0 a1 a2 a3 : Byte) : mixColumn ⟨a0, a1, a2, a3⟩ =
    ⟨gfMul a0 2 ^^^ gfMul a1 3 ^^^ a2 ^^^ a3, a0 ^^^ gfMul a1 2 ^^^ gfMul a2 3 ^^^ a3,
     a0 ^^^ a1 ^^^ gfMul a2 2 ^^^ gfMul a3 3, gfMul a0 3 ^^^ a1 ^^^ a2 ^^^ gfMul a3 2⟩ := by
  simp only [gfMul_two, gfMul_three, mixColumn]

/-- InvMixColumns as the product with the matrix of R97. -/
theorem invMixColumn_eq_gfMul (a0 a1 a2 a3 : Byte) : invMixColumn ⟨a0, a1, a2, a3⟩ =
    ⟨gfMul a0 14 ^^^ gfMul a1 11 ^^^ gfMul a2 13 ^^^ gfMul a3 9,
     gfMul a0 9 ^^^ gfMul a1 14 ^^^ gfMul a2 11 ^^^ gfMul a3 13,
     gfMul a0 13 ^^^ gfMul a1 9 ^^^ gfMul a2 14 ^^^ gfMul a3 11,
     gfMul a0 11 ^^^ gfMul a1 13 ^^^ gfMul a2 9 ^^^ gfMul a3 14⟩ := by
  simp only [gfMul_nine, gfMul_eleven, gfMul_thirteen, gfMul_fourteen, invMixColumn]

/-- The xor of the four bytes of a column. -/
def quadTotal (a : Quad) : Byte := a.b0 ^^^ a.b1 ^^^ a.b2 ^^^ a.b3

/-- MixColumns with one doubling a byte: each byte is xored with the column's total and with the
double of its sum with the next byte. -/
theorem mixColumn_eq_total (a : Quad) : mixColumn a =
    ⟨a.b0 ^^^ (quadTotal a ^^^ xtime (a.b0 ^^^ a.b1)), a.b1 ^^^ (quadTotal a ^^^ xtime (a.b1 ^^^ a.b2)),
     a.b2 ^^^ (quadTotal a ^^^ xtime (a.b2 ^^^ a.b3)), a.b3 ^^^ (quadTotal a ^^^ xtime (a.b3 ^^^ a.b0))⟩ := by
  simp [mixColumn, mul3, quadTotal, xtime_xor, BitVec.xor_assoc, BitVec.xor_comm, byte_xor_left_comm]

theorem quadTotal_mixColumn (a : Quad) : quadTotal (mixColumn a) = quadTotal a := by
  rw [mixColumn_eq_total]
  simp [quadTotal, xtime_xor, BitVec.xor_assoc, BitVec.xor_comm, byte_xor_left_comm]

theorem mixColumn_xor (a b : Quad) : mixColumn (a.xor b) = (mixColumn a).xor (mixColumn b) := by
  simp only [mixColumn, mul3, Quad.xor, xtime_xor, Quad.mk.injEq]
  refine ⟨?_, ?_, ?_, ?_⟩ <;> ac_rfl

theorem mixColumn_alternating (u v : Byte) : mixColumn ⟨u, v, u, v⟩ =
    ⟨u ^^^ xtime (u ^^^ v), v ^^^ xtime (u ^^^ v), u ^^^ xtime (u ^^^ v), v ^^^ xtime (u ^^^ v)⟩ := by
  simp [mixColumn, mul3, xtime_xor, BitVec.xor_assoc, BitVec.xor_comm, byte_xor_left_comm]

/-- The sums of the bytes two rows apart, multiplied by 4. -/
def crossColumn (a : Quad) : Quad :=
  ⟨xtime (xtime (a.b0 ^^^ a.b2)), xtime (xtime (a.b1 ^^^ a.b3)),
   xtime (xtime (a.b0 ^^^ a.b2)), xtime (xtime (a.b1 ^^^ a.b3))⟩

/-- The square of the MixColumns matrix. -/
theorem mixColumn_mixColumn (a : Quad) : mixColumn (mixColumn a) = a.xor (crossColumn a) := by
  rw [mixColumn_eq_total (mixColumn a), quadTotal_mixColumn, mixColumn_eq_total]
  simp [Quad.xor, crossColumn, xtime_xor, BitVec.xor_assoc, BitVec.xor_comm, byte_xor_left_comm]

/-- The matrix of R97 is the third power of that of R96. -/
theorem invMixColumn_eq_mixColumn_cube (a : Quad) :
    invMixColumn a = mixColumn (mixColumn (mixColumn a)) := by
  rw [mixColumn_mixColumn a, mixColumn_xor, crossColumn, mixColumn_alternating]
  simp only [invMixColumn, mixColumn, Quad.xor, mul3, mul9, mul11, mul13, mul14, xtime_xor,
    Quad.mk.injEq]
  refine ⟨?_, ?_, ?_, ?_⟩ <;> ac_rfl

/-- The matrix of R96 has order 4, since its square is an involution. -/
theorem mixColumn_fourth_power (a : Quad) : mixColumn (mixColumn (mixColumn (mixColumn a))) = a := by
  rw [mixColumn_mixColumn, mixColumn_mixColumn]
  simp [Quad.xor, crossColumn, xtime_xor, BitVec.xor_assoc]

@[simp] theorem mixColumn_invMixColumn (a : Quad) : mixColumn (invMixColumn a) = a := by
  rw [invMixColumn_eq_mixColumn_cube, mixColumn_fourth_power]

@[simp] theorem invMixColumn_mixColumn (a : Quad) : invMixColumn (mixColumn a) = a := by
  rw [invMixColumn_eq_mixColumn_cube, mixColumn_fourth_power]

/-! ## The round transformations and their inverses (R94 to R98) -/

@[simp] theorem invSubBytes_subBytes (s : Block) : invSubBytes (subBytes s) = s := by
  simp [invSubBytes, subBytes, mapColumns, mapQuad]

@[simp] theorem subBytes_invSubBytes (s : Block) : subBytes (invSubBytes s) = s := by
  simp [invSubBytes, subBytes, mapColumns, mapQuad]

@[simp] theorem invShiftRows_shiftRows (s : Block) : invShiftRows (shiftRows s) = s := rfl

@[simp] theorem shiftRows_invShiftRows (s : Block) : shiftRows (invShiftRows s) = s := rfl

@[simp] theorem invMixColumns_mixColumns (s : Block) : invMixColumns (mixColumns s) = s := by
  simp [invMixColumns, mixColumns, mapColumns]

@[simp] theorem mixColumns_invMixColumns (s : Block) : mixColumns (invMixColumns s) = s := by
  simp [invMixColumns, mixColumns, mapColumns]

@[simp] theorem addRoundKey_addRoundKey (s rk : Block) : addRoundKey (addRoundKey s rk) rk = s := by
  simp [addRoundKey, Block.xor, Quad.xor]

theorem subBytes_bytes (s : Block) : (subBytes s).bytes = s.bytes.map sbox := rfl

theorem invSubBytes_bytes (s : Block) : (invSubBytes s).bytes = s.bytes.map invSbox := rfl

theorem addRoundKey_bytes (s rk : Block) :
    (addRoundKey s rk).bytes = List.zipWith (· ^^^ ·) s.bytes rk.bytes := rfl

/-- Row `r` moves left by `r` columns, at each of the sixteen places. -/
theorem shiftRows_getElem? (s : Block) {r c : Nat} (hr : r < 4) (hc : c < 4) :
    (shiftRows s).bytes[r + 4 * c]? = s.bytes[r + 4 * ((c + r) % 4)]? := by
  interval_cases r <;> interval_cases c <;> rfl

/-- Row `r` moves right by `r` columns, at each of the sixteen places. -/
theorem invShiftRows_getElem? (s : Block) {r c : Nat} (hr : r < 4) (hc : c < 4) :
    (invShiftRows s).bytes[r + 4 * c]? = s.bytes[r + 4 * ((c + 4 - r) % 4)]? := by
  interval_cases r <;> interval_cases c <;> rfl

/-! ## Key expansion (R99, R100) -/

/-- The four words of a round key. -/
def blockWords (b : Block) : List Quad := [b.c0, b.c1, b.c2, b.c3]

/-- Word `4 * r + j` of a list of round keys is word `j` of round key `r`. -/
theorem flatMap_blockWords_getElem? {bs : List Block} {r j : Nat} {b : Block} (hb : bs[r]? = some b)
    (hj : j < 4) : (bs.flatMap blockWords)[4 * r + j]? = (blockWords b)[j]? := by
  induction bs generalizing r with
  | nil => simp at hb
  | cons b' bs ih =>
    rw [List.flatMap_cons]
    cases r with
    | zero =>
      obtain rfl : b' = b := by simpa using hb
      rw [List.getElem?_append_left (by simp [blockWords]; omega), Nat.mul_zero, Nat.zero_add]
    | succ r =>
      rw [List.getElem?_append_right (by simp [blockWords]; omega), ← ih (by simpa using hb)]
      congr 1
      simp only [blockWords, List.length_cons, List.length_nil]
      omega

theorem roundKeysFrom_length (rcs : List Byte) (k : Block) : (roundKeysFrom rcs k).length = rcs.length := by
  induction rcs generalizing k with
  | nil => rfl
  | cons rc rcs ih => simp [roundKeysFrom, ih]

@[simp] theorem roundKeys_length (k : Block) : (roundKeys k).length = 10 := roundKeysFrom_length rcon k

/-- Each round key is made from the one before it and the round constant of its place. -/
theorem roundKeysFrom_getElem?_succ {rcs : List Byte} {k b : Block} {r : Nat} {rc : Byte}
    (hb : (k :: roundKeysFrom rcs k)[r]? = some b) (hrc : rcs[r]? = some rc) :
    (k :: roundKeysFrom rcs k)[r + 1]? = some (nextRoundKey rc b) := by
  induction rcs generalizing k r with
  | nil => simp at hrc
  | cons rc' rcs ih =>
    cases r with
    | zero =>
      obtain rfl : k = b := Option.some.inj hb
      obtain rfl : rc' = rc := Option.some.inj hrc
      rfl
    | succ r => exact ih hb hrc

/-- `rk[r]`, from the key itself on. -/
def roundKey (k : Block) (r : Nat) : Block := (k :: roundKeys k).getD r k

theorem roundKey_getElem? (k : Block) {r : Nat} (hr : r ≤ 10) :
    (k :: roundKeys k)[r]? = some (roundKey k r) := by
  have hlt : r < (k :: roundKeys k).length := by simp; omega
  rw [roundKey, List.getD_eq_getElem _ _ hlt, List.getElem?_eq_getElem hlt]

theorem roundKeys_eq_map (k : Block) : roundKeys k = (List.range' 1 10).map (roundKey k) := by
  refine List.ext_getElem (by simp) fun i hi _ => ?_
  simp [roundKey, Nat.add_comm 1 i, List.getElem?_eq_getElem hi]

/-- The round constants are the powers of 2 (R99). -/
theorem rcon_getElem? {i : Nat} (hi : i < 10) : rcon[i]? = some (xtime^[i] 0x01) := by
  revert i
  decide

theorem roundKey_succ (k : Block) {r : Nat} (hr : r < 10) :
    roundKey k (r + 1) = nextRoundKey (xtime^[r] 0x01) (roundKey k r) :=
  Option.some.inj ((roundKey_getElem? k hr).symm.trans
    (roundKeysFrom_getElem?_succ (roundKey_getElem? k hr.le) (rcon_getElem? hr)))

/-- The 44 words of the key expansion. -/
def keyWords (k : Block) : List Quad := (k :: roundKeys k).flatMap blockWords

theorem keyWords_length (k : Block) : (keyWords k).length = 44 := by
  simp [keyWords, List.length_flatMap, blockWords]

/-- Round key `r` is the words from `4 * r` on. -/
theorem keyWords_getElem? (k : Block) {r j : Nat} (hr : r ≤ 10) (hj : j < 4) :
    (keyWords k)[4 * r + j]? = (blockWords (roundKey k r))[j]? :=
  flatMap_blockWords_getElem? (roundKey_getElem? k hr) hj

/-- The recurrence of R100, four words at a time: word `i` is word `i - 4` xored with word `i - 1`, rotated,
substituted and xored with the round constant where a new round key begins. -/
theorem keyWords_recurrence (k : Block) {r j : Nat} (hr : r < 10) (hj : j < 4) :
    ∃ p q t : Quad, (keyWords k)[4 * r + j + 3]? = some p ∧ (keyWords k)[4 * r + j]? = some q ∧
      (keyWords k)[4 * (r + 1) + j]? = some (q.xor t) ∧
      if j = 0 then t = scheduleWord (xtime^[r] 0x01) p else t = p := by
  have old {j : Nat} := keyWords_getElem? k (j := j) hr.le
  have new {j : Nat} := keyWords_getElem? k (j := j) (Nat.succ_le_of_lt hr)
  rw [Nat.succ_eq_add_one, roundKey_succ k hr] at new
  match j, hj with
  | 0, h => exact ⟨_, _, _, old (j := 3) (by decide), old (j := 0) h, new (j := 0) h, rfl⟩
  | 1, h => exact ⟨_, _, _, new (j := 0) (by decide), old (j := 1) h, new (j := 1) h, rfl⟩
  | 2, h => exact ⟨_, _, _, new (j := 1) (by decide), old (j := 2) h, new (j := 2) h, rfl⟩
  | 3, h => exact ⟨_, _, _, new (j := 2) (by decide), old (j := 3) h, new (j := 3) h, rfl⟩

/-! ## The rounds and the two ciphers undo each other (R101 to R103) -/

theorem encRounds_cons (rk rk' : Block) (rks : List Block) (s : Block) :
    encRounds (rk :: rk' :: rks) s =
      encRounds (rk' :: rks) (addRoundKey (mixColumns (shiftRows (subBytes s))) rk) := rfl

theorem decRounds_cons (rk rk' : Block) (rks : List Block) (s : Block) :
    decRounds (rk :: rk' :: rks) s =
      invSubBytes (invShiftRows (invMixColumns (addRoundKey (decRounds (rk' :: rks) s) rk))) := rfl

theorem decRounds_encRounds (rks : List Block) (s : Block) : decRounds rks (encRounds rks s) = s := by
  induction rks, s using encRounds.induct with
  | case1 s => rfl
  | case2 rk s => simp [encRounds, decRounds]
  | case3 rk rks s hne ih =>
    obtain ⟨rk', rks, rfl⟩ := List.exists_cons_of_ne_nil hne
    simp [encRounds_cons, decRounds_cons, ih]

theorem encRounds_decRounds (rks : List Block) (s : Block) : encRounds rks (decRounds rks s) = s := by
  induction rks, s using decRounds.induct with
  | case1 s => rfl
  | case2 rk s => simp [encRounds, decRounds]
  | case3 rk rks s hne ih =>
    obtain ⟨rk', rks, rfl⟩ := List.exists_cons_of_ne_nil hne
    simp [encRounds_cons, decRounds_cons, ih]

theorem aesD_aesE (k x : Block) : aesD k (aesE k x) = x := by
  simp [aesD, aesE, decRounds_encRounds]

theorem aesE_aesD (k x : Block) : aesE k (aesD k x) = x := by
  simp [aesD, aesE, encRounds_decRounds]

/-! ## The ciphers round by round (R101, R102) -/

/-- The state after `r` full rounds of the forward cipher under the round keys `rk`. -/
def encState (rk : Nat → Block) (x : Block) : Nat → Block
  | 0 => addRoundKey x (rk 0)
  | r + 1 => addRoundKey (mixColumns (shiftRows (subBytes (encState rk x r)))) (rk (r + 1))

/-- The state `m` full rounds of the inverse cipher after the first AddRoundKey, whose key is `rk n`. -/
def decState (rk : Nat → Block) (n : Nat) (y : Block) : Nat → Block
  | 0 => addRoundKey y (rk n)
  | m + 1 => invMixColumns (addRoundKey (invSubBytes (invShiftRows (decState rk n y m))) (rk (n - (m + 1))))

/-- From the state after `r` rounds, `n` more full rounds and the last one. -/
theorem encRounds_encState (rk : Nat → Block) (x : Block) (r n : Nat) :
    encRounds ((List.range' (r + 1) (n + 1)).map rk) (encState rk x r) =
      addRoundKey (shiftRows (subBytes (encState rk x (r + n)))) (rk (r + n + 1)) := by
  induction n generalizing r with
  | zero => rfl
  | succ n ih =>
    have hnext := ih (r + 1)
    rw [Nat.add_right_comm r 1 n] at hnext
    exact hnext

/-- The last `m + 1` round keys undo the last round and `m` full ones. -/
theorem decRounds_eq_decState (rk : Nat → Block) {n m : Nat} (y : Block) (hm : m ≤ n) :
    decRounds ((List.range' (n - m) (m + 1)).map rk) y = invSubBytes (invShiftRows (decState rk n y m)) := by
  induction m with
  | zero => rfl
  | succ m ih =>
    have hsucc : n - (m + 1) + 1 = n - m := by omega
    have hprev := ih (by omega)
    simp only [List.range'_succ, List.map_cons] at hprev ⊢
    rw [hsucc, decRounds_cons, hprev, decState]

theorem aesE_eq_encState (k x : Block) : aesE k x =
    addRoundKey (shiftRows (subBytes (encState (roundKey k) x 9))) (roundKey k 10) := by
  rw [aesE, roundKeys_eq_map]
  exact encRounds_encState (roundKey k) x 0 9

theorem aesD_eq_decState (k y : Block) : aesD k y =
    addRoundKey (invSubBytes (invShiftRows (decState (roundKey k) 10 y 9))) (roundKey k 0) := by
  rw [aesD, roundKeys_eq_map]
  exact congrArg (addRoundKey · k) (decRounds_eq_decState (roundKey k) y (by decide : 9 ≤ 10))

end Sys2Proof.Machine

namespace Sys2Proof

open Machine

/-! ## The obligations of AES-128 -/

/-- Settles O17: each round of the one cipher undoes the round of the other, by induction on the round keys. -/
theorem blockCipherIsInvertible : Obligations.BlockCipherIsInvertible :=
  fun k x => ⟨aesD_aesE k x, aesE_aesD k x⟩

/-- Settles O19: the rows by their sixteen places, the columns through the fixed multiples as products in
GF(2^8), and the inverse of MixColumns as its third power. -/
theorem roundTransformationsByBytes : Obligations.RoundTransformationsByBytes :=
  ⟨fun s => ⟨subBytes_bytes s, invSubBytes_bytes s⟩,
    fun s _ _ hr hc => ⟨shiftRows_getElem? s hr hc, invShiftRows_getElem? s hr hc⟩,
    fun _ => ⟨rfl, rfl⟩, mixColumn_eq_gfMul, invMixColumn_eq_gfMul, invMixColumns_mixColumns,
    fun s rk => ⟨addRoundKey_bytes s rk, addRoundKey_addRoundKey s rk⟩⟩

/-- Settles O20: the words are those of the round keys in order; word `4 * (r + 1) + j` is word `j` of the
key that `nextRoundKey` makes from round key `r`. -/
theorem roundKeysAreTheKeyExpansion : Obligations.RoundKeysAreTheKeyExpansion := by
  intro k
  refine ⟨keyWords k, keyWords_length k, rfl, rfl, rfl, rfl, fun i hi hlt => ?_, roundKeys_length k,
    fun r hr => ⟨roundKey k r, roundKey_getElem? k hr, keyWords_getElem? k hr (j := 0) (by decide),
      keyWords_getElem? k hr (j := 1) (by decide), keyWords_getElem? k hr (j := 2) (by decide),
      keyWords_getElem? k hr (j := 3) (by decide)⟩⟩
  have hr : i / 4 - 1 < 10 := by omega
  obtain ⟨p, q, t, hp, hq, hw, ht⟩ := keyWords_recurrence k hr (Nat.mod_lt i (by decide : 0 < 4))
  rw [show 4 * (i / 4 - 1) + i % 4 + 3 = i - 1 by omega] at hp
  rw [show 4 * (i / 4 - 1) + i % 4 = i - 4 by omega] at hq
  rw [show 4 * (i / 4 - 1 + 1) + i % 4 = i by omega] at hw
  refine ⟨p, q, t, hp, hq, hw, ?_⟩
  split at ht
  · next h => rw [if_pos h]; exact ⟨_, rcon_getElem? hr, rfl, ht⟩
  · next h => rw [if_neg h]; exact ht

/-- Settles O21: the states between the rounds are `encState` and, counted from the last round key back,
`decState`. -/
theorem ciphersFollowTheirRounds : Obligations.CiphersFollowTheirRounds := by
  refine fun k x => ⟨roundKey k, fun r hr => roundKey_getElem? k hr,
    ⟨encState (roundKey k) x, rfl, fun r hr _ => ?_, aesE_eq_encState k x⟩,
    ⟨fun r => decState (roundKey k) 10 x (10 - r), rfl, fun r _ hr => ?_, ?_⟩⟩
  · obtain ⟨r, rfl⟩ := Nat.exists_eq_add_of_le' hr
    rfl
  · have hround : 10 - r = 10 - (r + 1) + 1 := by omega
    have hkey : 10 - (10 - (r + 1) + 1) = r := by omega
    change decState _ _ _ (10 - r) = _
    rw [hround, decState, hkey]
  · rw [aesD_eq_decState]

/-- Settles O18: undoing the affine map on an entry of the table gives the inverse of its index, and the two
tables undo each other. -/
theorem sboxIsTheAffineImageOfTheInverse : Obligations.SboxIsTheAffineImageOfTheInverse := by
  refine ⟨xtime_toNat, gfMul_eq_foldl_filter, fun a => ⟨sboxUnaffine (sbox a), ?_, gfMul_sboxUnaffine_sbox,
    (sboxAffine_sboxUnaffine (sbox a)).symm⟩, fun a => ⟨invSbox_sbox a, sbox_invSbox a⟩, by decide⟩
  rintro rfl
  exact sboxUnaffine_sbox_zero

end Sys2Proof

/-!
The CBC engine: PKCS#7 padding, the two CBC passes over blocks, and the operations CBCENC and CBCDEC
(41_cbc_pkcs7.md rules R120 to R127).
-/

namespace Sys2Proof.Machine

/-! ## Padding (R120) -/

theorem padCount_bounds (n : Nat) : 1 ≤ padCount n ∧ padCount n ≤ 16 := by
  rw [padCount]; omega

theorem length_lt_cipherLength (n : Nat) : n < cipherLength n := by
  rw [cipherLength]; omega

theorem cipherLengthOk_cipherLength (n : Nat) : cipherLengthOk (cipherLength n) = true := by
  rw [cipherLengthOk_iff, cipherLength]; omega

/-! ## Unpadding (R121) -/

/-- The last byte is the count, and the bytes it counts all equal it. -/
theorem unpad_eq_some_iff (m p : List Byte) :
    unpad m = some p ↔ ∃ b : Byte, m.getLast? = some b ∧ 1 ≤ b.toNat ∧ b.toNat ≤ 16 ∧
      (∀ x ∈ m.drop (m.length - b.toNat), x = b) ∧ m.take (m.length - b.toNat) = p := by
  unfold unpad
  cases m.getLast? with
  | none => simp
  | some b => simp [and_assoc]

theorem unpad_append_replicate (p : List Byte) {n : Nat} (h1 : 1 ≤ n) (h16 : n ≤ 16) :
    unpad (p ++ List.replicate n (BitVec.ofNat 8 n)) = some p := by
  have hn : (BitVec.ofNat 8 n).toNat = n := by rw [BitVec.toNat_ofNat]; omega
  have hkept : (p ++ List.replicate n (BitVec.ofNat 8 n)).length - n = p.length := by simp
  refine (unpad_eq_some_iff _ _).2 ⟨BitVec.ofNat 8 n, ?_, ?_⟩
  · rw [List.getLast?_append, List.getLast?_replicate, if_neg (by omega), Option.some_or]
  · rw [hn, hkept, List.drop_left, List.take_left]
    exact ⟨h1, h16, fun _ hx => List.eq_of_mem_replicate hx, rfl⟩

/-- With a block or more, the bytes counted are all there. -/
theorem eq_append_replicate_of_unpad {m p : List Byte} (hm : 16 ≤ m.length) (h : unpad m = some p) :
    ∃ n, 1 ≤ n ∧ n ≤ 16 ∧ m = p ++ List.replicate n (BitVec.ofNat 8 n) := by
  obtain ⟨b, -, h1, h16, hall, rfl⟩ := (unpad_eq_some_iff m p).1 h
  refine ⟨b.toNat, h1, h16, ?_⟩
  have hdrop : m.drop (m.length - b.toNat) = List.replicate b.toNat (BitVec.ofNat 8 b.toNat) := by
    rw [BitVec.ofNat_toNat, BitVec.setWidth_eq]
    exact List.eq_replicate_iff.2 ⟨by rw [List.length_drop]; omega, hall⟩
  rw [← hdrop, List.take_append_drop]

theorem unpad_pad (p : List Byte) : unpad (pad p) = some p := by
  obtain ⟨h1, h16⟩ := padCount_bounds p.length
  exact unpad_append_replicate p h1 h16

/-! ## Sequences of whole blocks -/

theorem ofBlocks_toBlocks {m : List Byte} (h : m.length % 16 = 0) : ofBlocks (toBlocks m) = m := by
  obtain ⟨bs, rfl⟩ := exists_blocks h
  rw [toBlocks_ofBlocks]

theorem bytes_of_ofBlocks {bs : List Block} {j : Nat} {b : Block} (hb : bs[j]? = some b) :
    b.bytes = ((ofBlocks bs).drop (16 * j)).take 16 := by
  induction bs generalizing j with
  | nil => simp at hb
  | cons a bs ih =>
    cases j with
    | zero =>
      obtain rfl : a = b := by simpa using hb
      exact (List.take_left' (Block.bytes_length a)).symm
    | succ j =>
      have hnext : 16 * (j + 1) = a.bytes.length + 16 * j := by rw [Block.bytes_length]; omega
      rw [ih (by simpa using hb), ofBlocks, hnext, List.drop_length_add_append]

theorem toBlocks_getElem?_of_lt {m : List Byte} (h : m.length % 16 = 0) {j : Nat} (hj : j < m.length / 16) :
    ∃ b, (toBlocks m)[j]? = some b :=
  ⟨_, List.getElem?_eq_getElem (by rwa [toBlocks_length h])⟩

/-! ## The CBC passes (R122, R123) -/

theorem toBlocks_cbcEnc (k v : Block) (m : List Byte) :
    toBlocks (cbcEnc k v m) = cbcEncBlocks k v (toBlocks m) := toBlocks_ofBlocks _

theorem toBlocks_cbcDec (k v : Block) (c : List Byte) :
    toBlocks (cbcDec k v c) = cbcDecBlocks k v (toBlocks c) := toBlocks_ofBlocks _

/-- CHAIN at block `j` is entry `j` of the ciphertext with the IV put in front. -/
theorem cbcEncBlocks_getElem? {k v b : Block} {ms : List Block} {j : Nat} (hb : ms[j]? = some b) :
    ∃ chain, (v :: cbcEncBlocks k v ms)[j]? = some chain ∧
      (cbcEncBlocks k v ms)[j]? = some (aesE k (b.xor chain)) := by
  induction ms generalizing v j with
  | nil => simp at hb
  | cons m ms ih =>
    cases j with
    | zero =>
      obtain rfl : m = b := by simpa using hb
      exact ⟨v, rfl, rfl⟩
    | succ j => exact ih (v := aesE k (m.xor v)) (by simpa using hb)

/-- CHAIN at block `j` is entry `j` of the input with the IV put in front. -/
theorem cbcDecBlocks_getElem? {k v b : Block} {cs : List Block} {j : Nat} (hb : cs[j]? = some b) :
    ∃ chain, (v :: cs)[j]? = some chain ∧
      (cbcDecBlocks k v cs)[j]? = some ((aesD k b).xor chain) := by
  induction cs generalizing v j with
  | nil => simp at hb
  | cons c cs ih =>
    cases j with
    | zero =>
      obtain rfl : c = b := by simpa using hb
      exact ⟨v, rfl, rfl⟩
    | succ j => exact ih (v := c) (by simpa using hb)

/-- CHAIN is the IV for the first block and the previous block for every other. -/
theorem chain_of_getElem?_cons {v chain : Block} {bs : List Block} {j : Nat}
    (h : (v :: bs)[j]? = some chain) : if j = 0 then chain = v else bs[j - 1]? = some chain := by
  cases j with
  | zero => simpa [eq_comm] using h
  | succ j => simpa using h

theorem Block.xor_xor_cancel_right (a b : Block) : (a.xor b).xor b = a := addRoundKey_addRoundKey a b

theorem cbcDecBlocks_cbcEncBlocks (k v : Block) (ms : List Block) :
    cbcDecBlocks k v (cbcEncBlocks k v ms) = ms := by
  induction ms generalizing v with
  | nil => rfl
  | cons m ms ih => rw [cbcEncBlocks, cbcDecBlocks, ih, aesD_aesE, Block.xor_xor_cancel_right]

theorem cbcDec_cbcEnc (k v : Block) {m : List Byte} (h : m.length % 16 = 0) :
    cbcDec k v (cbcEnc k v m) = m := by
  rw [cbcDec, toBlocks_cbcEnc, cbcDecBlocks_cbcEncBlocks, ofBlocks_toBlocks h]

/-! ## The engine's round trip (R127) -/

theorem decryptBlock_encryptBlock (k v : Block) (p : List Byte) :
    decryptBlock k v (encryptBlock k v p) = some p := by
  have hwhole : (pad p).length % 16 = 0 := by rw [pad_length, cipherLength]; omega
  rw [decryptBlock, encryptBlock, cbcDec_cbcEnc k v hwhole, unpad_pad]

variable {s t : State}

/-- What an error-free CBCENC has found and done (R124). -/
theorem execCbcenc_of_ok (he : exec .cbcenc s = .next t) (hok : t.err = .ok) :
    (s.status.keyv && s.status.ivv) = true ∧ s.params.fits (cipherLength s.len) = true ∧
      ∃ p, content s = some p ∧ t = ended .ok (holding (encryptBlock s.key s.iv p) s) := by
  rcases execCbcenc_eq_next.1 he with ⟨_, rfl⟩ | ⟨_, _, rfl⟩ | ⟨hops, hfits, p, hp, _, rfl⟩
  · cases hok
  · cases hok
  · exact ⟨hops, hfits, p, hp, rfl⟩

theorem execCbcenc_len (he : exec .cbcenc s = .next t) (hok : t.err = .ok) :
    t.len = cipherLength s.len := by
  obtain ⟨_, _, p, hp, rfl⟩ := execCbcenc_of_ok he hok
  rw [ended_len, holding_len, encryptBlock_length, content_length hp]

/-- CBCDEC of a buffer that holds an encryption under its own KEY and IV (R125). -/
theorem execCbcdec_of_encryptBlock {p : List Byte} (hops : (s.status.keyv && s.status.ivv) = true)
    (hc : content s = some (encryptBlock s.key s.iv p)) (hfits : s.params.fits p.length = true) :
    exec .cbcdec s = .next (ended .ok (holding p s)) := by
  have hlen : cipherLengthOk s.len = true := by
    rw [← content_length hc, encryptBlock_length, cipherLengthOk_cipherLength]
  exact execCbcdec_eq_next.2 (.inr (.inr ⟨hops, hlen, _, hc,
    .inr ⟨p, decryptBlock_encryptBlock s.key s.iv p, hfits, rfl⟩⟩))

theorem wf_holding {v : List Byte} (h : Memory.wf s.buf = true) : Memory.wf (holding v s).buf = true := by
  rw [holding_buf]; exact Memory.wf_cut (Memory.wf_writeSeq v h)

theorem read_holding (v : List Byte) (a : Nat) : Memory.read (holding v s).buf a = v[a]? := by
  rw [holding_buf, Memory.read_cut, Memory.read_writeSeq]
  by_cases ha : a < v.length <;> simp [ha]

/-- In a coherent state the content is all that BUF holds (R26, R54). -/
theorem coherent_read {p : List Byte} (h : Coherent s) (hp : content s = some p) (a : Nat) :
    Memory.read s.buf a = p[a]? := by
  obtain ⟨hlen, hread⟩ := (Memory.readSeq_eq_some_iff _ _ _ _).1 hp
  rcases Nat.lt_or_ge a s.len with ha | ha
  · simpa using hread a ha
  · rw [coherent_read_above h ha, List.getElem?_eq_none (hlen ▸ ha)]

/-- Putting a coherent state's content back into a canonical buffer restores its BUF. -/
theorem holding_buf_of_content {p : List Byte} (hs : Coherent s) (hp : content s = some p)
    (ht : Memory.wf t.buf = true) : (holding p t).buf = s.buf :=
  Memory.ext_of_rising (wf_holding ht) (coherent_wf hs) fun a => by
    rw [read_holding, coherent_read hs hp]

end Sys2Proof.Machine

namespace Sys2Proof

open Machine

/-! ## The obligations of the CBC engine -/

/-- Settles O22: the count is `padCount`, and the examples follow from it. -/
theorem padReachesTheNextBlock : Obligations.PadReachesTheNextBlock := by
  refine ⟨fun p => ?_, rfl, rfl, fun p hp => ?_, fun p hp => ?_⟩
  · obtain ⟨h1, h16⟩ := padCount_bounds p.length
    refine ⟨padCount p.length, h1, h16, rfl, rfl, pad_length p, ?_⟩
    rw [pad_length]
    exact length_lt_cipherLength p.length
  · rw [pad, hp]; rfl
  · rw [pad, hp]; rfl

/-- Settles O23: a positive multiple of 16 bytes holds all the bytes its last one can count. -/
theorem unpadAcceptsExactlyValidPadding : Obligations.UnpadAcceptsExactlyValidPadding := by
  refine ⟨fun m p hne hm => ⟨eq_append_replicate_of_unpad ?_, ?_⟩, unpad_pad⟩
  · have hpos : 0 < m.length := List.length_pos_iff.2 hne
    omega
  · rintro ⟨n, h1, h16, rfl⟩
    exact unpad_append_replicate p h1 h16

/-- Settles O24: by the passes over the blocks, each block found with its CHAIN, the last clause by
undoing one block at a time. -/
theorem cbcPassesChainTheBlocks : Obligations.CbcPassesChainTheBlocks := by
  intro k v m hm
  refine ⟨cbcEnc_length hm, cbcDec_length hm, fun j b hb => ?_, fun j hj => ?_, fun j hj => ?_,
    cbcDec_cbcEnc k v hm⟩
  · rw [bytes_of_ofBlocks hb, ofBlocks_toBlocks hm]
  · obtain ⟨b, hb⟩ := toBlocks_getElem?_of_lt hm hj
    obtain ⟨chain, hchain, hout⟩ := cbcEncBlocks_getElem? (k := k) (v := v) hb
    rw [toBlocks_cbcEnc]
    exact ⟨b, chain, hb, chain_of_getElem?_cons hchain, hout⟩
  · obtain ⟨b, hb⟩ := toBlocks_getElem?_of_lt hm hj
    obtain ⟨chain, hchain, hout⟩ := cbcDecBlocks_getElem? (k := k) (v := v) hb
    rw [toBlocks_cbcDec]
    exact ⟨b, chain, hb, chain_of_getElem?_cons hchain, hout⟩

/-- Settles O28: the new LEN is `cipherLength` of the old one. -/
theorem cbcencLengthLaw : Obligations.CbcencLengthLaw := by
  rintro s t - he ⟨-, -, hok⟩
  have hlen : t.len = 16 * (s.len / 16 + 1) := execCbcenc_len he hok
  omega

/-- Settles O30: CBCDEC finds the encryption of the old content under the KEY and IV that CBCENC left, and
putting that content back restores BUF, since a coherent BUF holds its content and nothing else. -/
theorem cbcdecUndoesCbcenc : Obligations.CbcdecUndoesCbcenc := by
  refine ⟨decryptBlock_encryptBlock, ?_⟩
  rintro s t ⟨hcoh, -, -⟩ he ⟨-, -, hok⟩
  obtain ⟨hops, hfits, p, hp, rfl⟩ := execCbcenc_of_ok he hok
  have hlen : p.length = s.len := content_length hp
  have hroom : s.params.fits p.length = true := by
    rw [hlen]; exact fits_mono hfits (length_lt_cipherLength s.len).le
  refine ⟨_, execCbcdec_of_encryptBlock (p := p) hops (by simp) hroom, ⟨rfl, rfl, rfl⟩, ?_, hlen⟩
  exact holding_buf_of_content hcoh hp (wf_holding (coherent_wf hcoh))

end Sys2Proof

/-!
The IVGenerator: IVGEN with a draw to take, and IVGEN followed by CBCENC beside FWENC (42_ivgen.md rule R140).
-/

namespace Sys2Proof.Machine

variable {s : State} {r : Block} {rest : List Block} {p : List Byte}

/-! ## The operations where nothing stops them -/

theorem execIvgen_of_draw (h : s.rng = r :: rest) :
    exec .ivgen s = .next (ended .ok (setIv r { s with rng := rest })) :=
  execIvgen_eq_next.2 (.inr ⟨r, rest, h, rfl⟩)

/-- CBCENC with both operands and room replaces the content by its encryption (R124). -/
theorem execCbcenc_of_content (hops : (s.status.keyv && s.status.ivv) = true)
    (hfits : s.params.fits (cipherLength s.len) = true) (hp : content s = some p) :
    exec .cbcenc s = .next (ended .ok (holding (encryptBlock s.key s.iv p) s)) := by
  have hroom : s.params.fits (encryptBlock s.key s.iv p).length = true := by
    rwa [encryptBlock_length, content_length hp]
  exact execCbcenc_eq_next.2 (.inr (.inr ⟨hops, hfits, p, hp, hroom, rfl⟩))

/-- FWENC with a key, room and a draw replaces the content by its container under the draw (R151). -/
theorem execFwenc_of_content (hkey : s.status.keyv = true)
    (hfits : s.params.fits (containerLength s.len) = true) (hr : s.rng = r :: rest)
    (hp : content s = some p) :
    exec .fwenc s =
      .next (ended .ok (setIv r (holding (container s.key r p) { s with rng := rest }))) := by
  have hroom : s.params.fits (container s.key r p).length = true := by
    rwa [container_length, content_length hp]
  exact execFwenc_eq_next.2 (.inr (.inr (.inr ⟨hkey, hfits, r, rest, p, hr, hp, hroom, rfl⟩)))

theorem cipherLength_le_containerLength (n : Nat) : cipherLength n ≤ containerLength n :=
  Nat.le_add_left _ _

end Sys2Proof.Machine

namespace Sys2Proof

open Machine

/-! ## The obligation of the IVGenerator -/

/-- Settles O9: after IVGEN the IV of CBCENC is the draw, so CBCENC leaves `encryptBlock s.key r p`, which is
what FWENC's container holds behind the draw; room for the container is room for its ciphertext. -/
theorem ivgenWritesTheDraw : Obligations.IvgenWritesTheDraw := by
  refine ⟨rfl, fun s r rest hr => execIvgen_of_draw hr, fun s r rest p hr hp hkey hfits => ?_⟩
  have hops : (s.status.keyv && true) = true := by rw [hkey]; rfl
  have hroom : s.params.fits (cipherLength s.len) = true :=
    fits_mono hfits (cipherLength_le_containerLength s.len)
  refine ⟨_, _, _, encryptBlock s.key r p, execIvgen_of_draw hr,
    execCbcenc_of_content (p := p) hops hroom hp, execFwenc_of_content hkey hfits hr hp, ?_, ?_, rfl, rfl⟩
  · rw [content_ended, content_holding]; rfl
  · rw [content_ended, content_setIv, content_holding, container]

end Sys2Proof

/-!
The FirmwareContainerCodec: the size of what FWENC leaves, and FWDEC of it (43_container.md rules R153 and R154).
-/

namespace Sys2Proof.Machine

variable {s t : State} {v : Block} {p : List Byte}

/-- What an error-free FWENC that did not wait for the RNG has found and done (R151). -/
theorem execFwenc_of_ok (hs : s.status.busy = true) (he : exec .fwenc s = .next t)
    (ht : t.status.busy = false) (hok : t.err = .ok) :
    s.status.keyv = true ∧ s.params.fits (containerLength s.len) = true ∧
      ∃ r rest p, s.rng = r :: rest ∧ content s = some p ∧
        t = ended .ok (setIv r (holding (container s.key r p) { s with rng := rest })) := by
  rcases execFwenc_eq_next.1 he with
    ⟨_, rfl⟩ | ⟨_, _, rfl⟩ | ⟨_, _, _, rfl⟩ | ⟨hkey, hfits, r, rest, p, hr, hp, _, rfl⟩
  · cases hok
  · cases hok
  · rw [hs] at ht; cases ht
  · exact ⟨hkey, hfits, r, rest, p, hr, hp, rfl⟩

theorem execFwenc_len (hs : s.status.busy = true) (he : exec .fwenc s = .next t)
    (ht : t.status.busy = false) (hok : t.err = .ok) : t.len = containerLength s.len := by
  obtain ⟨_, _, r, rest, p, _, hp, rfl⟩ := execFwenc_of_ok hs he ht hok
  rw [ended_len, setIv_len, holding_len, container_length, content_length hp]

theorem length_le_containerLength (n : Nat) : n ≤ containerLength n :=
  (length_lt_cipherLength n).le.trans (cipherLength_le_containerLength n)

/-- FWDEC of a buffer that holds a container made under its own KEY (R152). -/
theorem execFwdec_of_container (hkey : s.status.keyv = true)
    (hc : content s = some (container s.key v p)) (hfits : s.params.fits p.length = true) :
    exec .fwdec s = .next (ended .ok (setIv v (holding p s))) := by
  have hlen : cipherLengthOk (s.len - 16) = true := by
    rw [← content_length hc, container_length, containerLength, Nat.add_sub_cancel_left,
      cipherLengthOk_cipherLength]
  exact execFwdec_eq_next.2 (.inr (.inr (.inr ⟨hkey, hlen, v, encryptBlock s.key v p, hc,
    .inr ⟨p, decryptBlock_encryptBlock s.key v p, hfits, rfl⟩⟩)))

end Sys2Proof.Machine

namespace Sys2Proof

open Machine

/-! ## The obligations of the container -/

/-- Settles O29: the new LEN is `containerLength` of the old one. -/
theorem fwencLengthLaw : Obligations.FwencLengthLaw := by
  rintro s t ⟨-, hbusy, -⟩ he ⟨hdone, -, hok⟩
  have hlen : t.len = 16 + 16 * (s.len / 16 + 1) := execFwenc_len hbusy he hdone hok
  omega

/-- Settles O31: FWDEC finds a container of the old content under the KEY that FWENC left, takes the IV from
its first block, and putting that content back restores BUF. -/
theorem fwdecUndoesFwenc : Obligations.FwdecUndoesFwenc := by
  rintro s t ⟨hcoh, hbusy, -⟩ he ⟨hdone, -, hok⟩
  obtain ⟨hkey, hfits, r, rest, p, -, hp, rfl⟩ := execFwenc_of_ok hbusy he hdone hok
  have hlen : p.length = s.len := content_length hp
  have hroom : s.params.fits p.length = true := by
    rw [hlen]; exact fits_mono hfits (length_le_containerLength s.len)
  refine ⟨_, execFwdec_of_container (v := r) (p := p) hkey (by simp) hroom, ⟨rfl, rfl, rfl⟩, ?_, hlen⟩
  rw [ended_buf, setIv_buf]
  refine holding_buf_of_content hcoh hp ?_
  rw [issued_buf, ended_buf, setIv_buf]
  exact wf_holding (coherent_wf hcoh)

end Sys2Proof

/-!
The KeyDeriver: hex digits, the bytes of `derive`, and KDF with and without a token (44_kdf.md rules R170 to R172).
-/

namespace Sys2Proof.Machine

variable {s : State}

/-! ## Hex digits and the derivation (R170, R171) -/

theorem hexdigit_toNat (n : BitVec 4) :
    (hexdigit n).toNat = if n.toNat ≤ 9 then 0x30 + n.toNat else 0x37 + n.toNat := by
  have hn : n.toNat < 16 := n.isLt
  unfold hexdigit
  split <;> exact Nat.mod_eq_of_lt (by omega)

/-- Each token byte under its counter becomes two characters, in the token's order. -/
theorem derive_bytes (t : Token) : (derive t).bytes =
    (t.bytes.mapIdx fun i b => [hexHigh (kdfMask i b), hexLow (kdfMask i b)]).flatten := rfl

/-- Token byte `i` stands at places `2i` and `2i + 1`, high nibble first. -/
theorem derive_getElem? (t : Token) {i : Nat} (hi : i < t.bytes.length) :
    (derive t).bytes[2 * i]? = some (hexHigh (kdfMask i t.bytes[i])) ∧
      (derive t).bytes[2 * i + 1]? = some (hexLow (kdfMask i t.bytes[i])) := by
  have h8 : i < 8 := hi
  interval_cases i <;> exact ⟨rfl, rfl⟩

theorem exists_hexdigit_of_mem_derive {t : Token} {b : Byte} (hb : b ∈ (derive t).bytes) :
    ∃ n, b = hexdigit n := by
  rw [derive_bytes, List.mem_flatten] at hb
  obtain ⟨pair, hpair, hb⟩ := hb
  obtain ⟨i, hi, rfl⟩ := List.mem_mapIdx.1 hpair
  rcases List.mem_pair.1 hb with rfl | rfl
  · exact ⟨_, rfl⟩
  · exact ⟨_, rfl⟩

/-! ## The operation (R172) -/

theorem execKdf_of_noToken (h : s.status.tokv = false) : exec .kdf s = .next (ended .noOperand s) :=
  execKdf_eq_next.2 (.inl ⟨h, rfl⟩)

theorem execKdf_of_token (h : s.status.tokv = true) :
    exec .kdf s = .next (ended .ok (setDkey (derive s.tok) s)) :=
  execKdf_eq_next.2 (.inr ⟨h, rfl⟩)

end Sys2Proof.Machine

namespace Sys2Proof

open Machine

/-! ## The obligations of the KeyDeriver -/

/-- Settles O7: places `2i` and `2i + 1` hold the digits of the token byte xored with its counter. -/
theorem deriveIsHexOfTheMaskedToken : Obligations.DeriveIsHexOfTheMaskedToken := by
  refine ⟨hexdigit_toNat, fun t i hi => ?_⟩
  obtain ⟨hhigh, hlow⟩ := derive_getElem? t (i := i) hi
  exact ⟨t.bytes[i], _, List.getElem?_eq_getElem hi, rfl, hhigh, hlow⟩

/-- Settles O6: both outcomes of KDF, every derived byte as the digit of one of sixteen nibbles, and the two
tokens of R172 by evaluation. -/
theorem kdfWritesTheDerivedKey : Obligations.KdfWritesTheDerivedKey := by
  refine ⟨rfl, fun s => execKdf_of_noToken, fun s => execKdf_of_token, rfl, fun t b hb => ?_, rfl⟩
  obtain ⟨n, rfl⟩ := exists_hexdigit_of_mem_derive hb
  clear hb
  revert n
  decide

end Sys2Proof

/-!
The ResourceXorDecoder: the keystream in closed form, the decoder as a mask of each byte by its index, and XORDEC
done twice (45_xordec.md rules R185 to R189).
-/

namespace Sys2Proof.Machine

variable {s : State} {p : List Byte}

/-! ## The keystream (R185, R188) -/

theorem xorCounter_eq (i : Nat) : xorCounter i = 3 * (i % 84 + 1) := by
  induction i with
  | zero => rfl
  | succ i ih =>
    rw [xorCounter, ih, xorAdvance, xorLimit, xorStep, xorC0]
    split <;> omega

theorem xorCounter_pos (i : Nat) : 3 ≤ xorCounter i := by
  rw [xorCounter_eq]; omega

/-- After 252 the counter restarts, so it never reaches `XOR_LIMIT`. -/
theorem xorCounter_le (i : Nat) : xorCounter i ≤ 252 := by
  rw [xorCounter_eq]; omega

theorem xorCounter_add_period (i : Nat) : xorCounter (i + 84) = xorCounter i := by
  rw [xorCounter_eq, xorCounter_eq, Nat.add_mod_right]

/-- The counter fits in a byte, so the keystream byte is the counter itself. -/
theorem keystream_toNat (i : Nat) : (keystream i).toNat = xorCounter i := by
  have hle := xorCounter_le i
  rw [keystream, BitVec.toNat_ofNat, Nat.mod_mod]
  exact Nat.mod_eq_of_lt (by omega)

theorem keystream_add_period (i : Nat) : keystream (i + 84) = keystream i := by
  rw [keystream, keystream, xorCounter_add_period]

theorem keystream_ne_of_toNat {b : Byte} (hb : b.toNat < 3 ∨ 252 < b.toNat) (i : Nat) : keystream i ≠ b := by
  rintro rfl
  have hpos := xorCounter_pos i
  have hle := xorCounter_le i
  rw [keystream_toNat] at hb
  omega

/-! ## The decoder (R186, R189) -/

/-- A decoding whose counter has already run over `i` bytes. -/
theorem xorDecodeFrom_xorCounter (bs : List Byte) (i : Nat) :
    xorDecodeFrom (xorCounter i) bs = bs.mapIdx fun j b => b ^^^ keystream (j + i) := by
  induction bs generalizing i with
  | nil => rfl
  | cons b bs ih =>
    have htail : xorDecodeFrom (xorAdvance (xorCounter i)) bs =
        bs.mapIdx fun j b => b ^^^ keystream (j + (i + 1)) := ih (i + 1)
    rw [xorDecodeFrom, htail, List.mapIdx_cons, Nat.zero_add, keystream]
    simp only [Nat.add_assoc, Nat.add_comm 1]

theorem xorDecode_eq_mapIdx (bs : List Byte) : xorDecode bs = bs.mapIdx fun i b => b ^^^ keystream i :=
  xorDecodeFrom_xorCounter bs 0

@[simp] theorem xorDecode_length (bs : List Byte) : (xorDecode bs).length = bs.length :=
  xorDecodeFrom_length bs xorC0

theorem xorDecode_getElem? (bs : List Byte) (i : Nat) :
    (xorDecode bs)[i]? = bs[i]?.map (· ^^^ keystream i) := by
  rw [xorDecode_eq_mapIdx, List.getElem?_mapIdx]

/-- Both decodings mask a byte with the same keystream byte, which cancels. -/
@[simp] theorem xorDecode_xorDecode (bs : List Byte) : xorDecode (xorDecode bs) = bs :=
  List.ext_getElem? fun i => by
    rw [xorDecode_getElem?, xorDecode_getElem?]
    cases bs[i]? with
    | none => rfl
    | some b => exact congrArg some (byte_xor_cancel_right b (keystream i))

/-! ## The operation (R187) -/

/-- XORDEC of a content that has room where it stands. -/
theorem execXordec_of_content (hp : content s = some p) (hfits : s.params.fits s.len = true) :
    exec .xordec s = .next (ended .ok { s with buf := Memory.writeSeq s.buf 0 (xorDecode p) }) := by
  have hroom : s.params.fits (xorDecode p).length = true := by
    rwa [xorDecode_length, content_length hp]
  exact execXordec_eq_next.2 ⟨p, hp, hroom, rfl⟩

/-- The content of a coherent state is within BUFCAP (R7). -/
theorem coherent_fits (hs : Coherent s) : s.params.fits s.len = true := by
  obtain ⟨-, -, hfits, -⟩ := hs
  exact hfits

/-- A sequence of LEN bytes written over BUF is the new content. -/
theorem content_writeSeq {v : List Byte} (h : v.length = s.len) :
    content { s with buf := Memory.writeSeq s.buf 0 v } = some v := by
  rw [content, ← h]
  exact Memory.readSeq_writeSeq s.buf v

/-- Writing a coherent state's content back over as many other bytes restores its BUF. -/
theorem writeSeq_content_of_writeSeq {v : List Byte} (hs : Coherent s) (hp : content s = some p)
    (hv : v.length = p.length) : Memory.writeSeq (Memory.writeSeq s.buf 0 v) 0 p = s.buf := by
  refine Memory.ext_of_rising (Memory.wf_writeSeq p (Memory.wf_writeSeq v (coherent_wf hs)))
    (coherent_wf hs) fun a => ?_
  rw [Memory.read_writeSeq, Memory.read_writeSeq, hv, coherent_read hs hp]
  split <;> rfl

end Sys2Proof.Machine

namespace Sys2Proof

open Machine

/-! ## The obligations of the ResourceXorDecoder -/

/-- Settles O25: decoding is a map by index. -/
theorem xorDecodeMasksByteByByte : Obligations.XorDecodeMasksByteByByte :=
  fun b => ⟨xorDecode_length b, xorDecode_getElem? b⟩

/-- Settles O26: every clause follows from the counter's closed form; the multiple `3 * n` stands at index
`n - 1`. -/
theorem keystreamHasPeriod84 : Obligations.KeystreamHasPeriod84 := by
  refine ⟨xorCounter_eq, fun i => ?_, fun n h1 h84 => ⟨n - 1, by omega, ?_⟩⟩
  · have hle := xorCounter_le i
    exact ⟨keystream_toNat i, keystream_add_period i, hle, by omega,
      keystream_ne_of_toNat (.inl (by decide)) i, keystream_ne_of_toNat (.inr (by decide)) i⟩
  · rw [keystream_toNat, xorCounter_eq]
    omega

/-- Settles O33: the second XORDEC finds the first one's output as its content, decodes it to the old content,
and writes that back over the same addresses. -/
theorem xordecIsAnInvolution : Obligations.XordecIsAnInvolution := by
  refine ⟨xorDecode_xorDecode, ?_⟩
  rintro s ⟨hcoh, -, -⟩
  obtain ⟨p, hp⟩ := coherent_content hcoh
  have hfits := coherent_fits hcoh
  have hlen : (xorDecode p).length = s.len := by rw [xorDecode_length, content_length hp]
  have hmasked : content (issued (encode .xordec)
      (ended .ok { s with buf := Memory.writeSeq s.buf 0 (xorDecode p) })) = some (xorDecode p) := by
    rw [content_issued, content_ended, content_writeSeq hlen]
  refine ⟨_, _, execXordec_of_content hp hfits, execXordec_of_content hmasked hfits,
    ⟨rfl, rfl, rfl⟩, ⟨rfl, rfl, rfl⟩, ?_, rfl⟩
  rw [xorDecode_xorDecode]
  exact writeSeq_content_of_writeSeq hcoh hp (xorDecode_length p)

end Sys2Proof

/-!
The host actions: the operand writes, LDBUF, ISSUE and the reads of STATUS and ERR (46_host_actions.md rules
R201 to R206).
-/

namespace Sys2Proof.Machine

variable {s : State} {d : List Byte}

/-! ## Operand writes (R201 to R203) -/

theorem Block.exists_bytes_eq (h : d.length = 16) : ∃ b : Block, b.bytes = d := by
  obtain ⟨b, hb⟩ := Block.exists_ofList? h
  exact ⟨b, (Block.ofList?_eq_some hb).symm⟩

theorem Token.exists_bytes_eq (h : d.length = 8) : ∃ t : Token, t.bytes = d := by
  obtain ⟨t, ht⟩ := Token.exists_ofList? h
  exact ⟨t, (Token.ofList?_eq_some ht).symm⟩

theorem Block.ofList?_of_length_ne (h : d.length ≠ 16) : Block.ofList? d = none :=
  Option.eq_none_iff_forall_ne_some.2 fun b hb => h (by rw [Block.ofList?_eq_some hb, Block.bytes_length])

theorem Token.ofList?_of_length_ne (h : d.length ≠ 8) : Token.ofList? d = none :=
  Option.eq_none_iff_forall_ne_some.2 fun t ht => h (by rw [Token.ofList?_eq_some ht, Token.bytes_length])

theorem hostAct_wkey_of_idle (b : Block) (h : s.status.busy = false) :
    hostAct (.wkey b.bytes) s = .next { s with key := b, status := { s.status with keyv := true } } := by
  simp [hostAct, hostWkey, h]

theorem hostAct_wiv_of_idle (b : Block) (h : s.status.busy = false) :
    hostAct (.wiv b.bytes) s = .next (setIv b s) := by
  simp [hostAct, hostWiv, h]

theorem hostAct_wtok_of_idle (t : Token) (h : s.status.busy = false) :
    hostAct (.wtok t.bytes) s = .next { s with tok := t, status := { s.status with tokv := true } } := by
  simp [hostAct, hostWtok, h]

/-- A KEY of the wrong length is dropped, at any time (R201, R209). -/
theorem hostAct_wkey_of_length_ne (h : d.length ≠ 16) : hostAct (.wkey d) s = .next s := by
  simp [hostAct, hostWkey, Block.ofList?_of_length_ne h]

/-- An IV of the wrong length is dropped, at any time (R202, R209). -/
theorem hostAct_wiv_of_length_ne (h : d.length ≠ 16) : hostAct (.wiv d) s = .next s := by
  simp [hostAct, hostWiv, Block.ofList?_of_length_ne h]

/-- A token of the wrong length is dropped, at any time (R203, R209). -/
theorem hostAct_wtok_of_length_ne (h : d.length ≠ 8) : hostAct (.wtok d) s = .next s := by
  simp [hostAct, hostWtok, Token.ofList?_of_length_ne h]

/-! ## LDBUF (R204) -/

theorem fits_iff_unbounded_or_le {p : Params} {n : Nat} :
    p.fits n = true ↔ p.bufcap = none ∨ ∃ c, p.bufcap = some c ∧ n ≤ c := by
  rw [fits_eq_true_iff]
  cases p.bufcap <;> simp

theorem hostAct_ldbuf_of_fits (hidle : s.status.busy = false) (hfits : s.params.fits d.length = true) :
    hostAct (.ldbuf d) s = .next (holding d s) := by
  simp [hostAct, hostLdbuf, hidle, hfits]

/-- What does not fit is dropped whole, at any time (R204, R209). -/
theorem hostAct_ldbuf_of_not_fits (h : s.params.fits d.length = false) :
    hostAct (.ldbuf d) s = .next s := by
  simp [hostAct, hostLdbuf, h]

/-! ## The values of STATUS and ERR (R29, R230) -/

@[simp] theorem bit_eq_toNat (b : Bool) : bit b = b.toNat := by
  cases b <;> rfl

/-- Six flags weigh at most 63, so the byte holds their weighted sum. -/
theorem statusByte_toNat (f : Status) :
    (statusByte f).toNat = f.busy.toNat + 2 * f.done.toNat + 4 * f.keyv.toNat + 8 * f.ivv.toNat +
      16 * f.tokv.toNat + 32 * f.dkv.toNat := by
  have hbusy := f.busy.toNat_le
  have hdone := f.done.toNat_le
  have hkeyv := f.keyv.toNat_le
  have hivv := f.ivv.toNat_le
  have htokv := f.tokv.toNat_le
  have hdkv := f.dkv.toNat_le
  simp only [statusByte, bit_eq_toNat, BitVec.toNat_ofNat]
  exact Nat.mod_eq_of_lt (by omega)

/-- While an operation is in flight ERR reads 0 (R206). -/
theorem errByte_of_busy (hs : Coherent s) (hbusy : s.status.busy = true) : errByte s.err = 0 := by
  rw [(coherent_busy hs hbusy).1, errByte]

end Sys2Proof.Machine

namespace Sys2Proof

open Machine

/-! ## The obligations of the host actions -/

/-- Settles O46: the bytes of the right length are those of a block or a token, which the register takes
whole; any other length is none. -/
theorem operandWritesSetRegisterAndFlag : Obligations.OperandWritesSetRegisterAndFlag := by
  refine fun s d hidle => ⟨fun h16 => ?_, fun hne => ?_, fun h8 => ?_, hostAct_wtok_of_length_ne⟩
  · obtain ⟨b, rfl⟩ := Block.exists_bytes_eq h16
    exact ⟨b, rfl, hostAct_wkey_of_idle b hidle, hostAct_wiv_of_idle b hidle⟩
  · exact ⟨hostAct_wkey_of_length_ne hne, hostAct_wiv_of_length_ne hne⟩
  · obtain ⟨t, rfl⟩ := Token.exists_bytes_eq h8
    exact ⟨t, rfl, hostAct_wtok_of_idle t hidle⟩

/-- Settles O47: what fits makes the state `holding d s`, and what exceeds BUFCAP does not fit. -/
theorem ldbufLoadsTheBuffer : Obligations.LdbufLoadsTheBuffer := by
  refine fun s d hidle => ⟨fun hroom => ?_, fun c hcap hlong => ?_⟩
  · have hfits : s.params.fits d.length = true := fits_iff_unbounded_or_le.2 hroom
    exact ⟨holding d s, hostAct_ldbuf_of_fits hidle hfits, content_holding d s,
      fun a => read_holding_above, rfl⟩
  · exact hostAct_ldbuf_of_not_fits (fits_eq_false_iff.2 ⟨c, hcap, hlong⟩)

/-- Settles O48: an idle block accepts any byte. -/
theorem issueStartsAnOperation : Obligations.IssueStartsAnOperation :=
  fun _ b hidle => hostAct_issue_of_idle b hidle

/-- Settles O50: the weighted sum of the flags, one code for each result, and ERR at 0 in flight. -/
theorem statusReadsAreAlwaysAllowed : Obligations.StatusReadsAreAlwaysAllowed := by
  refine fun s => ⟨statusByte s.status, errByte s.err, rfl, statusByte_toNat s.status, rfl, ?_,
    errByte_of_busy⟩
  cases s.err <;> rfl

end Sys2Proof

/-!
The errors: which operation ends with which one and when (60_exceptions.md rules R231 to R237), and that an error
writes ERR, BUSY and DONE only (R241).
-/

namespace Sys2Proof.Machine

variable {s t : State} {i : Instr} {e : Err}

/-! ## The block while an operation is in flight (R241) -/

/-- The two states differ at most in what is no part of the block: the RNG's answers, the agenda and the host's
side. -/
def SameBlock (s t : State) : Prop :=
  t = { s with rng := t.rng, agenda := t.agenda, readings := t.readings, fresh := t.fresh }

/-- A busy block drops every write, and a read changes the host's side only (R209); RESET abandons the operation. -/
theorem hostAct_of_busy {a : HostAction} (hb : s.status.busy = true) (h : hostAct a s = .next t) :
    a = .reset ∨ SameBlock s t := by
  cases a with
  | reset => exact .inl rfl
  | wkey | wiv | wtok | ldbuf | issue =>
    simp only [hostAct, hostWkey, hostWiv, hostWtok, hostLdbuf, hostIssue, hb, if_true,
      Host.Outcome.next.injEq] at h
    exact .inr (h ▸ rfl)
  | rdstat | rderr =>
    cases h
    exact .inr rfl
  | rdlen | rdbuf | rdiv | rddkey =>
    simp only [hostAct, hostRdlen, hostRdbuf, hostRdiv, hostRddkey, hb, if_true, Bool.true_or,
      Host.Outcome.next.injEq] at h
    exact .inr (h ▸ rfl)

/-- With a byte in flight the CORE's move waits, or completes: without an error, or writing ERR, BUSY and DONE
only (R210, R240). -/
theorem coreTurn_of_busy (hb : s.status.busy = true) (h : coreTurn s = .next t) :
    t = s ∨ t.status.busy = false ∧ (t.err = .ok ∨ t = ended t.err s) := by
  rcases coreTurn_cases h with ⟨hidle, -⟩ | ⟨-, i, -, he⟩ | ⟨-, -, rfl⟩
  · rw [hb] at hidle; cases hidle
  · rcases exec_next_cases he with ⟨-, -, hwait⟩ | ⟨-, -, -, herr⟩ | ⟨hok, hidle, -⟩
    · exact .inl hwait
    · exact .inr ⟨by rw [herr]; rfl, .inr herr⟩
    · exact .inr ⟨hidle, .inl hok⟩
  · exact .inr ⟨rfl, .inr rfl⟩

/-- An EXEC that leaves the operation in flight is a wait for the RNG. -/
theorem coreTurn_eq_of_busy (hb : s.status.busy = true) (h : coreTurn s = .next t)
    (ht : t.status.busy = true) : t = s := by
  rcases coreTurn_of_busy hb h with rfl | ⟨hidle, -⟩
  · rfl
  · rw [ht] at hidle; cases hidle

theorem sameBlock_of_coreTurn (hb : s.status.busy = true) (h : coreTurn s = .next t)
    (ht : t.status.busy = true) : SameBlock s t := by
  obtain rfl := coreTurn_eq_of_busy hb h ht
  exact rfl

theorem sameBlock_of_fairTurn (hb : s.status.busy = true) (h : fairTurn s = .next t)
    (ht : t.status.busy = true) : SameBlock s t := by
  rcases fairTurn_cases h with ⟨-, rfl⟩ | ⟨-, hcore⟩
  · exact rfl
  · exact sameBlock_of_coreTurn hb hcore ht

/-- From ISSUE to EXEC no step changes the block (R241). -/
theorem sameBlock_of_step (hb : s.status.busy = true) (h : step s = .next t)
    (ht : t.status.busy = true) : SameBlock s t := by
  rcases step_cases h with ⟨-, hfair⟩ | ⟨a, rest, -, hhost⟩ | ⟨rest, -, -, rfl⟩ | ⟨rest, -, -, hfair⟩ |
    ⟨rest, -, hcore⟩ | ⟨r, rest, -, hcore⟩ | ⟨r, rest, -, rfl⟩
  · exact sameBlock_of_fairTurn hb hfair ht
  · rcases hostAct_of_busy (s := { s with agenda := rest }) hb hhost with rfl | hsame
    · cases hhost; cases ht
    · exact hsame
  · exact rfl
  · exact sameBlock_of_fairTurn hb hfair ht
  · exact sameBlock_of_coreTurn (s := { s with agenda := rest }) hb hcore ht
  · exact sameBlock_of_coreTurn (s := answerWith r { s with agenda := rest }) hb hcore ht
  · exact rfl

/-! ## When an operation raises which error (R231 to R237) -/

/-- The condition under which operation `i` ends with an error on the state at ISSUE, one row for each code of
R230; an operation never ends with ILLEGAL_CMD (R235). -/
def Raises (i : Instr) (s : State) : Err → Prop
  | .ok | .illegalCmd => False
  | .tooShort => i = .fwdec ∧ s.status.keyv = true ∧ s.len < 16
  | .invalidLength =>
    (i = .fwdec ∧ s.status.keyv = true ∧ 16 ≤ s.len ∧ (s.len - 16 = 0 ∨ (s.len - 16) % 16 ≠ 0)) ∨
      (i = .cbcdec ∧ s.status.keyv = true ∧ s.status.ivv = true ∧ (s.len = 0 ∨ s.len % 16 ≠ 0))
  | .badPaddingOrKey => i = .fwdec ∧ s.status.keyv = true ∧ ∃ (v : Block) (c : List Byte),
      content s = some (v.bytes ++ c) ∧ c.length ≠ 0 ∧ c.length % 16 = 0 ∧ decryptBlock s.key v c = none
  | .paddingError => i = .cbcdec ∧ s.status.keyv = true ∧ s.status.ivv = true ∧ ∃ c : List Byte,
      content s = some c ∧ s.len ≠ 0 ∧ s.len % 16 = 0 ∧ decryptBlock s.key s.iv c = none
  | .noOperand =>
    ((i = .fwdec ∨ i = .fwenc) ∧ s.status.keyv = false) ∨
      ((i = .cbcdec ∨ i = .cbcenc) ∧ (s.status.keyv = false ∨ s.status.ivv = false)) ∨
      (i = .kdf ∧ s.status.tokv = false)
  | .overflow =>
    (i = .fwenc ∧ s.status.keyv = true ∧
        ∃ c, s.params.bufcap = some c ∧ c < 16 + 16 * (s.len / 16 + 1)) ∨
      (i = .cbcenc ∧ s.status.keyv = true ∧ s.status.ivv = true ∧
        ∃ c, s.params.bufcap = some c ∧ c < 16 * (s.len / 16 + 1))

theorem execFwdec_of_short (hk : s.status.keyv = true) (hl : s.len < 16) :
    exec .fwdec s = .next (ended .tooShort s) :=
  execFwdec_eq_next.2 (.inr (.inl ⟨hk, hl, rfl⟩))

/-- The first block of a coherent buffer is readable, so FWDEC comes to its length check (R232). -/
theorem execFwdec_of_partial (hs : Coherent s) (hk : s.status.keyv = true) (hl : 16 ≤ s.len)
    (hbad : s.len - 16 = 0 ∨ (s.len - 16) % 16 ≠ 0) : exec .fwdec s = .next (ended .invalidLength s) := by
  obtain ⟨p, hp⟩ := coherent_content hs
  have hlen := content_length hp
  obtain ⟨v, c, rfl⟩ := exists_block_append (l := p) (by omega)
  obtain ⟨-, -, hv, -⟩ := readSeq_of_content_append hp
  exact execFwdec_eq_next.2 (.inr (.inr (.inl ⟨hk, hl, cipherLengthOk_eq_false.2 hbad, ⟨v, hv⟩, rfl⟩)))

theorem execCbcdec_of_partial (hk : s.status.keyv = true) (hv : s.status.ivv = true)
    (hbad : s.len = 0 ∨ s.len % 16 ≠ 0) : exec .cbcdec s = .next (ended .invalidLength s) :=
  execCbcdec_eq_next.2 (.inr (.inl ⟨Bool.and_eq_true_iff.2 ⟨hk, hv⟩, cipherLengthOk_eq_false.2 hbad, rfl⟩))

theorem execFwdec_of_badPadding {v : Block} {c : List Byte} (hc : content s = some (v.bytes ++ c))
    (hk : s.status.keyv = true) (h0 : c.length ≠ 0) (h16 : c.length % 16 = 0)
    (hpad : decryptBlock s.key v c = none) : exec .fwdec s = .next (ended .badPaddingOrKey s) := by
  obtain ⟨-, hlen, -, -⟩ := readSeq_of_content_append hc
  have hok : cipherLengthOk (s.len - 16) = true := by rw [hlen]; exact cipherLengthOk_iff.2 ⟨h0, h16⟩
  exact execFwdec_eq_next.2 (.inr (.inr (.inr ⟨hk, hok, v, c, hc, .inl ⟨hpad, rfl⟩⟩)))

theorem execCbcdec_of_badPadding {c : List Byte} (hc : content s = some c) (hk : s.status.keyv = true)
    (hv : s.status.ivv = true) (h0 : s.len ≠ 0) (h16 : s.len % 16 = 0)
    (hpad : decryptBlock s.key s.iv c = none) : exec .cbcdec s = .next (ended .paddingError s) :=
  execCbcdec_eq_next.2
    (.inr (.inr ⟨Bool.and_eq_true_iff.2 ⟨hk, hv⟩, cipherLengthOk_iff.2 ⟨h0, h16⟩, c, hc, .inl ⟨hpad, rfl⟩⟩))

/-- The operand check comes first in every operation that has one (R236, R239). -/
theorem exec_of_missingOperand (h : Raises i s .noOperand) : exec i s = .next (ended .noOperand s) := by
  rcases h with ⟨rfl | rfl, hk⟩ | ⟨hi, hmissing⟩ | ⟨rfl, htok⟩
  · exact execFwdec_eq_next.2 (.inl ⟨hk, rfl⟩)
  · exact execFwenc_eq_next.2 (.inl ⟨hk, rfl⟩)
  · have hops : (s.status.keyv && s.status.ivv) = false := Bool.and_eq_false_iff.2 hmissing
    rcases hi with rfl | rfl
    · exact execCbcdec_eq_next.2 (.inl ⟨hops, rfl⟩)
    · exact execCbcenc_eq_next.2 (.inl ⟨hops, rfl⟩)
  · exact execKdf_of_noToken htok

theorem exec_of_tooLong (h : Raises i s .overflow) : exec i s = .next (ended .overflow s) := by
  rcases h with ⟨rfl, hk, hlong⟩ | ⟨rfl, hk, hv, hlong⟩
  · exact execFwenc_eq_next.2 (.inr (.inl ⟨hk, fits_eq_false_iff.2 hlong, rfl⟩))
  · exact execCbcenc_eq_next.2 (.inr (.inl ⟨Bool.and_eq_true_iff.2 ⟨hk, hv⟩, fits_eq_false_iff.2 hlong, rfl⟩))

/-- Each condition of the table makes the operation end with its error, the state otherwise as at ISSUE. -/
theorem exec_of_raises (hs : Coherent s) (h : Raises i s e) : exec i s = .next (ended e s) := by
  cases e with
  | ok | illegalCmd => exact h.elim
  | tooShort =>
    obtain ⟨rfl, hk, hl⟩ := h
    exact execFwdec_of_short hk hl
  | invalidLength =>
    rcases h with ⟨rfl, hk, hl, hbad⟩ | ⟨rfl, hk, hv, hbad⟩
    · exact execFwdec_of_partial hs hk hl hbad
    · exact execCbcdec_of_partial hk hv hbad
  | badPaddingOrKey =>
    obtain ⟨rfl, hk, v, c, hc, h0, h16, hpad⟩ := h
    exact execFwdec_of_badPadding hc hk h0 h16 hpad
  | paddingError =>
    obtain ⟨rfl, hk, hv, c, hc, h0, h16, hpad⟩ := h
    exact execCbcdec_of_badPadding hc hk hv h0 h16 hpad
  | noOperand => exact exec_of_missingOperand h
  | overflow => exact exec_of_tooLong h

/-- An operation that ends with an error has met that error's condition. -/
theorem raises_of_exec (hs : s.err = .ok) (he : exec i s = .next t) (hne : t.err ≠ .ok) :
    Raises i s t.err := by
  cases i with
  | fwdec =>
    rcases execFwdec_eq_next.1 he with ⟨hk, rfl⟩ | ⟨hk, hl, rfl⟩ | ⟨hk, hl, hbad, -, rfl⟩ |
      ⟨hk, hok, v, c, hc, ⟨hpad, rfl⟩ | ⟨p, -, -, rfl⟩⟩
    · exact .inl ⟨.inl rfl, hk⟩
    · exact ⟨rfl, hk, hl⟩
    · exact .inl ⟨rfl, hk, hl, cipherLengthOk_eq_false.1 hbad⟩
    · obtain ⟨-, hlen, -, -⟩ := readSeq_of_content_append hc
      rw [hlen] at hok
      obtain ⟨h0, h16⟩ := cipherLengthOk_iff.1 hok
      exact ⟨rfl, hk, v, c, hc, h0, h16, hpad⟩
    · exact absurd rfl hne
  | fwenc =>
    rcases execFwenc_eq_next.1 he with ⟨hk, rfl⟩ | ⟨hk, hlong, rfl⟩ | ⟨-, -, -, rfl⟩ |
      ⟨-, -, r, rest, p, -, -, -, rfl⟩
    · exact .inl ⟨.inr rfl, hk⟩
    · exact .inl ⟨rfl, hk, fits_eq_false_iff.1 hlong⟩
    · exact absurd hs hne
    · exact absurd rfl hne
  | cbcdec =>
    rcases execCbcdec_eq_next.1 he with ⟨hops, rfl⟩ | ⟨hops, hbad, rfl⟩ |
      ⟨hops, hok, c, hc, ⟨hpad, rfl⟩ | ⟨p, -, -, rfl⟩⟩
    · exact .inr (.inl ⟨.inl rfl, Bool.and_eq_false_iff.1 hops⟩)
    · obtain ⟨hk, hv⟩ := Bool.and_eq_true_iff.1 hops
      exact .inr ⟨rfl, hk, hv, cipherLengthOk_eq_false.1 hbad⟩
    · obtain ⟨hk, hv⟩ := Bool.and_eq_true_iff.1 hops
      obtain ⟨h0, h16⟩ := cipherLengthOk_iff.1 hok
      exact ⟨rfl, hk, hv, c, hc, h0, h16, hpad⟩
    · exact absurd rfl hne
  | cbcenc =>
    rcases execCbcenc_eq_next.1 he with ⟨hops, rfl⟩ | ⟨hops, hlong, rfl⟩ | ⟨-, -, p, -, -, rfl⟩
    · exact .inr (.inl ⟨.inr rfl, Bool.and_eq_false_iff.1 hops⟩)
    · obtain ⟨hk, hv⟩ := Bool.and_eq_true_iff.1 hops
      exact .inr ⟨rfl, hk, hv, fits_eq_false_iff.1 hlong⟩
    · exact absurd rfl hne
  | kdf =>
    rcases execKdf_eq_next.1 he with ⟨htok, rfl⟩ | ⟨-, rfl⟩
    · exact .inr (.inr ⟨rfl, htok⟩)
    · exact absurd rfl hne
  | ivgen =>
    rcases execIvgen_eq_next.1 he with ⟨-, rfl⟩ | ⟨r, rest, -, rfl⟩
    · exact absurd hs hne
    · exact absurd rfl hne
  | xordec =>
    obtain ⟨p, -, -, rfl⟩ := execXordec_eq_next.1 he
    exact absurd rfl hne

/-- An operation in flight ends with an error exactly when that error's condition holds. -/
theorem err_eq_iff_raises (hf : InFlight i s) (he : exec i s = .next t) (hne : e ≠ .ok) :
    t.err = e ↔ Raises i s e := by
  obtain ⟨hs, hb, -⟩ := hf
  constructor
  · rintro rfl
    exact raises_of_exec (coherent_busy hs hb).1 he hne
  · intro h
    rw [exec_of_raises hs h] at he
    cases he
    rfl

end Sys2Proof.Machine

namespace Sys2Proof

open Machine

/-! ## The obligations of the errors -/

/-- Settles O41: a busy block's EXEC waits, succeeds or is `ended`, and no other step touches a busy block but
RESET, which ends the operation. -/
theorem errorsWriteNothingElse : Obligations.ErrorsWriteNothingElse := by
  refine ⟨fun s t hs hb hcore hne => ?_, fun s t => sameBlock_of_step⟩
  rcases coreTurn_of_busy hb hcore with rfl | ⟨-, hok | herr⟩
  · exact absurd (coherent_busy hs hb).1 hne
  · exact absurd hok hne
  · exact herr

/-- Settles O35: the row of TOO_SHORT; at LEN = 16 the ciphertext is empty. -/
theorem tooShortIsFwdecBelow16 : Obligations.TooShortIsFwdecBelow16 := by
  refine ⟨fun s => execFwdec_of_short, fun i s t hf he => err_eq_iff_raises hf he (by decide), ?_⟩
  rintro s ⟨hs, -, -⟩ hk hl
  exact execFwdec_of_partial hs hk hl.ge (.inl (by omega))

/-- Settles O36: the row of INVALID_LENGTH. -/
theorem invalidLengthIsAPartialCiphertext : Obligations.InvalidLengthIsAPartialCiphertext :=
  ⟨fun _ ⟨hs, _, _⟩ => execFwdec_of_partial hs, fun _ => execCbcdec_of_partial,
    fun _ _ _ hf he => err_eq_iff_raises hf he (by decide)⟩

/-- Settles O37: the row of BAD_PADDING_OR_KEY. -/
theorem badPaddingOrKeyIsFwdecsPaddingFailure : Obligations.BadPaddingOrKeyIsFwdecsPaddingFailure :=
  ⟨fun _ _ _ => execFwdec_of_badPadding, fun _ _ _ hf he => err_eq_iff_raises hf he (by decide)⟩

/-- Settles O38: the row of PADDING_ERROR, which names CBCDEC alone, as that of BAD_PADDING_OR_KEY names FWDEC. -/
theorem paddingErrorIsCbcdecsPaddingFailure : Obligations.PaddingErrorIsCbcdecsPaddingFailure := by
  refine ⟨fun s c => execCbcdec_of_badPadding, fun i s t hf he => ?_⟩
  have hcbcdec := err_eq_iff_raises (e := .paddingError) hf he (by decide)
  have hfwdec := err_eq_iff_raises (e := .badPaddingOrKey) hf he (by decide)
  refine ⟨hcbcdec, ?_, ?_⟩
  · rintro rfl herr
    obtain ⟨hi, -⟩ := hcbcdec.1 herr
    cases hi
  · rintro rfl herr
    obtain ⟨hi, -⟩ := hfwdec.1 herr
    cases hi

/-- Settles O39: the row of NO_OPERAND. -/
theorem noOperandIsAMissingOperand : Obligations.NoOperandIsAMissingOperand :=
  fun _ _ => ⟨exec_of_missingOperand, fun _ hf he => err_eq_iff_raises hf he (by decide)⟩

/-- Settles O40: the row of OVERFLOW, whose every case has a bounded buffer. -/
theorem overflowIsAResultThatDoesNotFit : Obligations.OverflowIsAResultThatDoesNotFit := by
  intro i s
  refine ⟨exec_of_tooLong, fun t hf he => err_eq_iff_raises hf he (by decide), ?_⟩
  intro t hf hunbounded he herr
  rcases (err_eq_iff_raises hf he (by decide)).1 herr with ⟨-, -, c, hcap, -⟩ | ⟨-, -, -, c, hcap, -⟩ <;>
    · rw [hunbounded] at hcap; cases hcap

end Sys2Proof

/-!
The operations as one: where each answers a next state, what it is, and what every operation keeps of the block's
invariant (10_state.md rules R27, R42; 41_cbc_pkcs7.md rule R125; 43_container.md rule R152).
-/

namespace Sys2Proof.Machine

variable {s t : State} {i : Instr} {v : Block} {c p : List Byte}

/-! ## The decryptions where nothing stops them -/

/-- CBCDEC with both operands, a good length and valid padding replaces the content by the plaintext (R125). -/
theorem execCbcdec_of_content (hk : s.status.keyv = true) (hv : s.status.ivv = true)
    (hc : content s = some c) (h0 : s.len ≠ 0) (h16 : s.len % 16 = 0) (hfits : s.params.fits s.len = true)
    (hp : decryptBlock s.key s.iv c = some p) : exec .cbcdec s = .next (ended .ok (holding p s)) := by
  have hlen := content_length hc
  have hshort := decryptBlock_length hp (by omega)
  have hroom : s.params.fits p.length = true := fits_mono hfits (by omega)
  exact execCbcdec_eq_next.2 (.inr (.inr ⟨Bool.and_eq_true_iff.2 ⟨hk, hv⟩, cipherLengthOk_iff.2 ⟨h0, h16⟩, c, hc,
    .inr ⟨p, hp, hroom, rfl⟩⟩))

/-- FWDEC of a well-formed container with valid padding replaces it by the plaintext and keeps its IV (R152). -/
theorem execFwdec_of_content (hk : s.status.keyv = true) (hc : content s = some (v.bytes ++ c))
    (h0 : c.length ≠ 0) (h16 : c.length % 16 = 0) (hfits : s.params.fits s.len = true)
    (hp : decryptBlock s.key v c = some p) : exec .fwdec s = .next (ended .ok (setIv v (holding p s))) := by
  obtain ⟨-, hlen, -, -⟩ := readSeq_of_content_append hc
  have hshort := decryptBlock_length hp h16
  have hroom : s.params.fits p.length = true := fits_mono hfits (by omega)
  have hok : cipherLengthOk (s.len - 16) = true := by rw [hlen]; exact cipherLengthOk_iff.2 ⟨h0, h16⟩
  exact execFwdec_eq_next.2 (.inr (.inr (.inr ⟨hk, hok, v, c, hc, .inr ⟨p, hp, hroom, rfl⟩⟩)))

/-! ## Every outcome of an operation -/

/-- The states in which operation `i` can have ended without an error, one row for each operation (R42). -/
inductive Completes (s : State) : Instr → State → Prop
  | fwdec {v : Block} {c p : List Byte} (hc : content s = some (v.bytes ++ c))
      (hfits : s.params.fits p.length = true) : Completes s .fwdec (ended .ok (setIv v (holding p s)))
  | fwenc {r : Block} {rest : List Block} {p : List Byte} (hr : s.rng = r :: rest)
      (hfits : s.params.fits (container s.key r p).length = true) :
      Completes s .fwenc (ended .ok (setIv r (holding (container s.key r p) { s with rng := rest })))
  | cbcdec {p : List Byte} (hfits : s.params.fits p.length = true) :
      Completes s .cbcdec (ended .ok (holding p s))
  | cbcenc {p : List Byte} (hfits : s.params.fits (encryptBlock s.key s.iv p).length = true) :
      Completes s .cbcenc (ended .ok (holding (encryptBlock s.key s.iv p) s))
  | kdf : Completes s .kdf (ended .ok (setDkey (derive s.tok) s))
  | ivgen {r : Block} {rest : List Block} (hr : s.rng = r :: rest) :
      Completes s .ivgen (ended .ok (setIv r { s with rng := rest }))
  | xordec {p : List Byte} (hc : content s = some p) :
      Completes s .xordec (ended .ok { s with buf := Memory.writeSeq s.buf 0 (xorDecode p) })

/-- An operation waits for the RNG, ends with an error, writing ERR, BUSY and DONE only, or completes. -/
theorem exec_cases (he : exec i s = .next t) :
    (takesDraw i s = true ∧ s.rng = [] ∧ t = s) ∨
    (t.err ≠ .ok ∧ t.err ≠ .illegalCmd ∧ t = ended t.err s) ∨ Completes s i t := by
  rcases exec_next_cases he with hwait | ⟨-, hne, hill, herr⟩ | ⟨hok, -, hdraw⟩
  · exact .inl hwait
  · exact .inr (.inl ⟨hne, hill, herr⟩)
  refine .inr (.inr ?_)
  cases i with
  | fwdec =>
    rcases execFwdec_eq_next.1 he with ⟨-, rfl⟩ | ⟨-, -, rfl⟩ | ⟨-, -, -, -, rfl⟩ |
      ⟨-, -, v, c, hc, ⟨-, rfl⟩ | ⟨p, -, hfits, rfl⟩⟩
    · cases hok
    · cases hok
    · cases hok
    · cases hok
    · exact .fwdec hc hfits
  | fwenc =>
    rcases execFwenc_eq_next.1 he with ⟨-, rfl⟩ | ⟨-, -, rfl⟩ | ⟨hk, hfits, hr, rfl⟩ |
      ⟨-, -, r, rest, p, hr, -, hfits, rfl⟩
    · cases hok
    · cases hok
    · simp [takesDraw, hasOperands, hk, hfits, hr] at hdraw
    · exact .fwenc hr hfits
  | cbcdec =>
    rcases execCbcdec_eq_next.1 he with ⟨-, rfl⟩ | ⟨-, -, rfl⟩ | ⟨-, -, c, -, ⟨-, rfl⟩ | ⟨p, -, hfits, rfl⟩⟩
    · cases hok
    · cases hok
    · cases hok
    · exact .cbcdec hfits
  | cbcenc =>
    rcases execCbcenc_eq_next.1 he with ⟨-, rfl⟩ | ⟨-, -, rfl⟩ | ⟨-, -, p, -, hfits, rfl⟩
    · cases hok
    · cases hok
    · exact .cbcenc hfits
  | kdf =>
    rcases execKdf_eq_next.1 he with ⟨-, rfl⟩ | ⟨-, rfl⟩
    · cases hok
    · exact .kdf
  | ivgen =>
    rcases execIvgen_eq_next.1 he with ⟨hr, rfl⟩ | ⟨r, rest, hr, rfl⟩
    · simp [takesDraw, hr] at hdraw
    · exact .ivgen hr
  | xordec =>
    obtain ⟨p, hc, -, rfl⟩ := execXordec_eq_next.1 he
    exact .xordec hc

theorem Completes.err_eq (h : Completes s i t) : t.err = .ok := by cases h <;> rfl

theorem Completes.busy_done (h : Completes s i t) : t.status.busy = false ∧ t.status.done = true := by
  cases h <;> exact ⟨rfl, rfl⟩

/-! ## Every operation answers a next state from a coherent state -/

theorem exists_execFwdec (hs : Coherent s) : ∃ t, exec .fwdec s = .next t := by
  cases hk : s.status.keyv with
  | false => exact ⟨_, execFwdec_eq_next.2 (.inl ⟨hk, rfl⟩)⟩
  | true =>
    rcases Nat.lt_or_ge s.len 16 with hl | hl
    · exact ⟨_, execFwdec_of_short hk hl⟩
    · obtain ⟨b, hb⟩ := coherent_content hs
      have hlen := content_length hb
      obtain ⟨v, c, rfl⟩ := exists_block_append (l := b) (by omega)
      rw [List.length_append, Block.bytes_length] at hlen
      by_cases hbad : s.len - 16 = 0 ∨ (s.len - 16) % 16 ≠ 0
      · exact ⟨_, execFwdec_of_partial hs hk hl hbad⟩
      · cases hp : decryptBlock s.key v c with
        | none => exact ⟨_, execFwdec_of_badPadding hb hk (by omega) (by omega) hp⟩
        | some p => exact ⟨_, execFwdec_of_content hk hb (by omega) (by omega) (coherent_fits hs) hp⟩

theorem exists_execFwenc (hs : Coherent s) : ∃ t, exec .fwenc s = .next t := by
  cases hk : s.status.keyv with
  | false => exact ⟨_, execFwenc_eq_next.2 (.inl ⟨hk, rfl⟩)⟩
  | true =>
    cases hfits : s.params.fits (containerLength s.len) with
    | false => exact ⟨_, execFwenc_eq_next.2 (.inr (.inl ⟨hk, hfits, rfl⟩))⟩
    | true =>
      obtain ⟨p, hp⟩ := coherent_content hs
      cases hr : s.rng with
      | nil => exact ⟨_, execFwenc_eq_next.2 (.inr (.inr (.inl ⟨hk, hfits, hr, rfl⟩)))⟩
      | cons r rest => exact ⟨_, execFwenc_of_content hk hfits hr hp⟩

theorem exists_execCbcdec (hs : Coherent s) : ∃ t, exec .cbcdec s = .next t := by
  cases hops : s.status.keyv && s.status.ivv with
  | false => exact ⟨_, execCbcdec_eq_next.2 (.inl ⟨hops, rfl⟩)⟩
  | true =>
    obtain ⟨hk, hv⟩ := Bool.and_eq_true_iff.1 hops
    by_cases hbad : s.len = 0 ∨ s.len % 16 ≠ 0
    · exact ⟨_, execCbcdec_of_partial hk hv hbad⟩
    · obtain ⟨c, hc⟩ := coherent_content hs
      cases hp : decryptBlock s.key s.iv c with
      | none => exact ⟨_, execCbcdec_of_badPadding hc hk hv (by omega) (by omega) hp⟩
      | some p => exact ⟨_, execCbcdec_of_content hk hv hc (by omega) (by omega) (coherent_fits hs) hp⟩

theorem exists_execCbcenc (hs : Coherent s) : ∃ t, exec .cbcenc s = .next t := by
  cases hops : s.status.keyv && s.status.ivv with
  | false => exact ⟨_, execCbcenc_eq_next.2 (.inl ⟨hops, rfl⟩)⟩
  | true =>
    cases hfits : s.params.fits (cipherLength s.len) with
    | false => exact ⟨_, execCbcenc_eq_next.2 (.inr (.inl ⟨hops, hfits, rfl⟩))⟩
    | true =>
      obtain ⟨p, hp⟩ := coherent_content hs
      exact ⟨_, execCbcenc_of_content hops hfits hp⟩

theorem exists_exec (i : Instr) (hs : Coherent s) : ∃ t, exec i s = .next t := by
  cases i with
  | fwdec => exact exists_execFwdec hs
  | fwenc => exact exists_execFwenc hs
  | cbcdec => exact exists_execCbcdec hs
  | cbcenc => exact exists_execCbcenc hs
  | kdf =>
    cases htok : s.status.tokv with
    | false => exact ⟨_, execKdf_of_noToken htok⟩
    | true => exact ⟨_, execKdf_of_token htok⟩
  | ivgen =>
    cases hr : s.rng with
    | nil => exact ⟨_, execIvgen_eq_next.2 (.inl ⟨hr, rfl⟩)⟩
    | cons r rest => exact ⟨_, execIvgen_of_draw hr⟩
  | xordec =>
    obtain ⟨p, hp⟩ := coherent_content hs
    exact ⟨_, execXordec_of_content hp (coherent_fits hs)⟩

theorem exists_coreTurn (hs : Coherent s) : ∃ t, coreTurn s = .next t := by
  unfold coreTurn runCommand
  split
  · split
    · exact exists_exec _ hs
    · exact ⟨_, rfl⟩
  · exact ⟨_, rfl⟩

theorem exists_fairTurn (hs : Coherent s) : ∃ t, fairTurn s = .next t := by
  unfold fairTurn
  split
  · exact ⟨_, rfl⟩
  · exact exists_coreTurn hs

/-- RDBUF is the one action that could fault, and a coherent content can be read. -/
theorem exists_hostAct (a : HostAction) (hs : Coherent s) : ∃ t, hostAct a s = .next t := by
  cases a with
  | rdbuf =>
    obtain ⟨p, hp⟩ := coherent_content hs
    rw [hostAct, hostRdbuf, bufOperand_of_content _ hp]
    split <;> exact ⟨_, rfl⟩
  | _ => exact ⟨_, rfl⟩

end Sys2Proof.Machine

namespace Sys2Proof

open Machine

/-- Settles O56: no move of an agent faults, since BUF can be read below LEN and LEN is within BUFCAP. -/
theorem noStepFaults : Obligations.NoStepFaults := by
  intro s hs
  unfold step takeTurn
  split
  · exact exists_fairTurn hs
  · exact exists_hostAct _ hs
  · split
    · exact ⟨_, rfl⟩
    · exact exists_fairTurn hs
  · exact exists_coreTurn hs
  · exact exists_coreTurn hs
  · exact ⟨_, rfl⟩

end Sys2Proof

/-!
The invariant of the block's states over every move: each update of the state that a move is made of keeps it
(10_state.md sections 3 and 4, 20_memory.md section 1).
-/

namespace Sys2Proof.Machine

variable {s t : State} {i : Instr} {a : HostAction}

/-! ## The updates that a move is made of -/

/-- A canonical buffer whose bytes are those of a sequence within BUFCAP is one the block can have. -/
theorem coherent_of_buffer {m : Mem} {v : List Byte} (hs : Coherent s) (hm : Memory.wf m = true)
    (hread : ∀ a, Memory.read m a = v[a]?) (hfits : s.params.fits v.length = true) :
    Coherent { s with buf := m, len := v.length } := by
  obtain ⟨hparams, -, -, hrest⟩ := hs
  refine ⟨hparams, ?_, hfits, hrest⟩
  rw [List.range_eq_range']
  exact Memory.addresses_of_read hm fun a => by rw [hread]; simp

theorem coherent_holding {v : List Byte} (hs : Coherent s) (hfits : s.params.fits v.length = true) :
    Coherent (holding v s) :=
  coherent_of_buffer (s := s) hs (wf_holding (coherent_wf hs)) (read_holding v) hfits

/-- In a coherent state, as many bytes as LEN written from address 0 up are all that BUF then holds. -/
theorem read_writeSeq_of_coherent {v : List Byte} (hs : Coherent s) (hv : v.length = s.len) (a : Nat) :
    Memory.read (Memory.writeSeq s.buf 0 v) a = v[a]? := by
  rw [Memory.read_writeSeq]
  rcases Nat.lt_or_ge a v.length with ha | ha
  · rw [if_pos (by omega), Nat.sub_zero]
  · rw [if_neg (by omega), coherent_read_above hs (by omega), List.getElem?_eq_none ha]

theorem coherent_writeSeq {v : List Byte} (hs : Coherent s) (hv : v.length = s.len) :
    Coherent { s with buf := Memory.writeSeq s.buf 0 v } := by
  have hfits : s.params.fits v.length = true := by rw [hv]; exact coherent_fits hs
  have h := coherent_of_buffer hs (Memory.wf_writeSeq v (coherent_wf hs)) (read_writeSeq_of_coherent hs hv) hfits
  rwa [hv] at h

theorem coherent_setIv (v : Block) : Coherent (setIv v s) ↔ Coherent s := Iff.rfl

theorem isHexCode_hexdigit (n : BitVec 4) : isHexCode (hexdigit n) = true := by
  revert n
  decide

theorem coherent_setDkey (t : Token) (hs : Coherent s) : Coherent (setDkey (derive t) s) := by
  obtain ⟨hparams, hbuf, hfits, hpair, herr, hcmd, hill, -⟩ := hs
  refine ⟨hparams, hbuf, hfits, hpair, herr, hcmd, hill, fun _ => List.all_eq_true.2 fun b hb => ?_⟩
  obtain ⟨n, rfl⟩ := exists_hexdigit_of_mem_derive hb
  exact isHexCode_hexdigit n

/-- ILLEGAL_CMD is the result of the illegal commands alone (R235). -/
theorem coherent_ended {e : Err} (hs : Coherent s) (he : e = .illegalCmd ↔ legalCommand s.cmd = false) :
    Coherent (ended e s) := by
  obtain ⟨hparams, hbuf, hfits, -, -, -, -, hdkey⟩ := hs
  exact ⟨hparams, hbuf, hfits, rfl, nofun, nofun, fun _ => he, hdkey⟩

theorem coherent_issued (b : Byte) (hs : Coherent s) : Coherent (issued b s) := by
  obtain ⟨hparams, hbuf, hfits, -, -, -, -, hdkey⟩ := hs
  exact ⟨hparams, hbuf, hfits, rfl, fun _ => rfl, nofun, nofun, hdkey⟩

theorem fits_zero (p : Params) : p.fits 0 = true :=
  fits_eq_true_iff.2 fun _ _ => Nat.zero_le _

theorem coherent_hostReset (hs : Coherent s) : Coherent (hostReset s) := by
  obtain ⟨hparams, -⟩ := hs
  exact ⟨hparams, rfl, fits_zero s.params, rfl, fun _ => rfl, fun _ _ => rfl, nofun, nofun⟩

/-! ## The operations -/

/-- The BUF and LEN an operation leaves are those of one of the block's states (R26, R54). -/
theorem coherent_buffer_of_exec (hs : Coherent s) (he : exec i s = .next t) :
    Coherent { s with buf := t.buf, len := t.len } := by
  rcases exec_cases he with ⟨-, -, rfl⟩ | ⟨-, -, herr⟩ | hdone
  · exact hs
  · rw [herr]; exact hs
  · cases hdone with
    | fwdec _ hfits | fwenc _ hfits | cbcdec hfits | cbcenc hfits => exact coherent_holding hs hfits
    | kdf | ivgen => exact hs
    | xordec hc => exact coherent_writeSeq hs (by rw [xorDecode_length, content_length hc])

/-- A completed operation leaves the invariant, its command being a legal one. -/
theorem coherent_of_completes (hs : Coherent s) (hl : legalCommand s.cmd = true) (h : Completes s i t) :
    Coherent t := by
  have hok : (Err.ok = .illegalCmd) ↔ legalCommand s.cmd = false := by simp [hl]
  cases h with
  | fwdec _ hfits => exact coherent_ended ((coherent_setIv _).2 (coherent_holding hs hfits)) hok
  | @fwenc r rest p _ hfits =>
    exact coherent_ended ((coherent_setIv r).2 (coherent_holding (s := { s with rng := rest }) hs hfits)) hok
  | cbcdec hfits | cbcenc hfits => exact coherent_ended (coherent_holding hs hfits) hok
  | kdf => exact coherent_ended (coherent_setDkey s.tok hs) hok
  | ivgen => exact coherent_ended hs hok
  | xordec hc => exact coherent_ended (coherent_writeSeq hs (by rw [xorDecode_length, content_length hc])) hok

theorem coherent_of_exec (hs : Coherent s) (hl : legalCommand s.cmd = true) (he : exec i s = .next t) :
    Coherent t := by
  rcases exec_cases he with ⟨-, -, rfl⟩ | ⟨-, hill, herr⟩ | hdone
  · exact hs
  · rw [herr]; exact coherent_ended hs (by simp [hill, hl])
  · exact coherent_of_completes hs hl hdone

/-! ## The moves of the agents -/

theorem coherent_of_coreTurn (hs : Coherent s) (h : coreTurn s = .next t) : Coherent t := by
  rcases coreTurn_cases h with ⟨-, rfl⟩ | ⟨-, i, hd, he⟩ | ⟨-, hill, rfl⟩
  · exact hs
  · exact coherent_of_exec hs ((legalCommand_iff s.cmd).2 ⟨i, hd⟩) he
  · exact coherent_ended hs (by simp [hill])

theorem coherent_of_fairTurn (hs : Coherent s) (h : fairTurn s = .next t) : Coherent t := by
  rcases fairTurn_cases h with ⟨-, rfl⟩ | ⟨-, hcore⟩
  · exact hs
  · exact coherent_of_coreTurn hs hcore

/-- Every next state of a host action: the state itself where it is dropped, its effect on an idle block, or the
record of what was read (R200 to R209). -/
inductive HostEffect (s : State) : HostAction → State → Prop
  | reset : HostEffect s .reset (hostReset s)
  | dropped {a : HostAction} (ha : a ≠ .reset) : HostEffect s a s
  | wkey {b : Block} (hb : s.status.busy = false) :
      HostEffect s (.wkey b.bytes) { s with key := b, status := { s.status with keyv := true } }
  | wiv {b : Block} (hb : s.status.busy = false) : HostEffect s (.wiv b.bytes) (setIv b s)
  | wtok {b : Token} (hb : s.status.busy = false) :
      HostEffect s (.wtok b.bytes) { s with tok := b, status := { s.status with tokv := true } }
  | ldbuf {d : List Byte} (hb : s.status.busy = false) (hfits : s.params.fits d.length = true) :
      HostEffect s (.ldbuf d) (holding d s)
  | issue {b : Byte} (hb : s.status.busy = false) : HostEffect s (.issue b) (issued b s)
  | record {a : HostAction} (ha : (itemRead a).isSome = true) (r : Reading) : HostEffect s a (record r s)
  | recordFree {a : HostAction} (ha : (itemRead a).isSome = true) (r : Reading) : HostEffect s a (recordFree r s)

theorem hostEffect_of_hostAct (h : hostAct a s = .next t) : HostEffect s a t := by
  cases a with
  | reset => cases h; exact .reset
  | wkey k =>
    cases h
    unfold hostWkey
    split
    · next hb hk => rw [Block.ofList?_eq_some hk]; exact .wkey hb
    · exact .dropped (by simp)
  | wiv v =>
    cases h
    unfold hostWiv
    split
    · next hb hv => rw [Block.ofList?_eq_some hv]; exact .wiv hb
    · exact .dropped (by simp)
  | wtok k =>
    cases h
    unfold hostWtok
    split
    · next hb hk => rw [Token.ofList?_eq_some hk]; exact .wtok hb
    · exact .dropped (by simp)
  | ldbuf d =>
    cases h
    unfold hostLdbuf
    split
    · exact .dropped (by simp)
    · next hb =>
      split
      · next hfits => exact .ldbuf (eq_false_of_ne_true hb) hfits
      · exact .dropped (by simp)
  | issue b =>
    cases h
    unfold hostIssue
    split
    · exact .dropped (by simp)
    · next hb => exact .issue (eq_false_of_ne_true hb)
  | rdstat | rderr => cases h; exact .record rfl _
  | rdlen =>
    cases h
    unfold hostRdlen
    split
    · exact .recordFree rfl _
    · exact .record rfl _
  | rdiv =>
    cases h
    unfold hostRdiv
    split
    · exact .recordFree rfl _
    · exact .record rfl _
  | rddkey =>
    cases h
    unfold hostRddkey
    split
    · exact .recordFree rfl _
    · exact .record rfl _
  | rdbuf =>
    rw [hostAct, hostRdbuf] at h
    split at h
    · cases h; exact .recordFree rfl _
    · obtain ⟨p, -, hp⟩ := bufOperand_eq_next.1 h
      cases hp
      exact .record rfl _

theorem coherent_of_hostAct (hs : Coherent s) (h : hostAct a s = .next t) : Coherent t := by
  cases hostEffect_of_hostAct h with
  | reset => exact coherent_hostReset hs
  | ldbuf _ hfits => exact coherent_holding hs hfits
  | issue _ => exact coherent_issued _ hs
  | dropped | wkey | wiv | wtok | record | recordFree => exact hs

end Sys2Proof.Machine

namespace Sys2Proof

open Machine

/-- Settles O55: by the kinds of moves; the agenda, the RNG's answers and the readings are no part of `Coherent`. -/
theorem everyStepKeepsTheInvariant : Obligations.EveryStepKeepsTheInvariant := by
  intro s t hs h
  rcases step_cases h with ⟨-, hfair⟩ | ⟨a, rest, -, hhost⟩ | ⟨rest, -, -, rfl⟩ | ⟨rest, -, -, hfair⟩ |
    ⟨rest, -, hcore⟩ | ⟨r, rest, -, hcore⟩ | ⟨r, rest, -, rfl⟩
  · exact coherent_of_fairTurn hs hfair
  · exact coherent_of_hostAct (s := { s with agenda := rest }) hs hhost
  · exact hs
  · exact coherent_of_fairTurn hs hfair
  · exact coherent_of_coreTurn (s := { s with agenda := rest }) hs hcore
  · exact coherent_of_coreTurn (s := answerWith r { s with agenda := rest }) hs hcore
  · exact hs

/-- Settles O54: every clause of `Coherent` by evaluation. -/
theorem resetMeetsTheInvariant : Obligations.ResetMeetsTheInvariant := by
  unfold Obligations.ResetMeetsTheInvariant
  decide

end Sys2Proof

/-!
The registers no flag vouches for: blotting them out commutes with every move, so that what they hold reaches
nothing (10_state.md rules R31, R40; 70_reset_and_hazards.md rule R262).
-/

namespace Sys2Proof.Machine

variable {s t : State} {rest : List Turn} {r : Block}

/-! ## The step by the next move on the agenda -/

theorem step_of_agenda_nil (h : s.agenda = []) : step s = fairTurn s := by
  simp only [step, takeTurn, h]

theorem step_of_agenda_wait (h : s.agenda = .wait :: rest) :
    step s = if s.status.done then .next (hostRdstat { s with agenda := rest }) else fairTurn s := by
  simp only [step, takeTurn, h]

theorem step_of_agenda_coreDraw (h : s.agenda = .coreDraw r :: rest) :
    step s = coreTurn (answerWith r { s with agenda := rest }) := by
  simp only [step, takeTurn, coreDrawTurn, h]

theorem step_of_agenda_rng (h : s.agenda = .rng r :: rest) :
    step s = .next (rngTurn r { s with agenda := rest }) := by
  simp only [step, takeTurn, h]

/-! ## Outcomes through a function -/

/-- The outcome as `f` shows its next state. -/
def outcomeThrough (f : State → State) : Result → Result
  | .next t => .next (f t)
  | .fault q => .fault q
  | .refused q => .refused q

theorem sameOutcome_iff {f : State → State} {x y : Result} :
    SameOutcome f x y ↔ outcomeThrough f x = outcomeThrough f y := by
  cases x <;> cases y <;> simp [SameOutcome, outcomeThrough]

/-! ## Blotting out what no flag vouches for -/

@[simp] theorem vouched_buf (s : State) : (vouched s).buf = s.buf := rfl
@[simp] theorem vouched_cmd (s : State) : (vouched s).cmd = s.cmd := rfl
@[simp] theorem vouched_status (s : State) : (vouched s).status = s.status := rfl
@[simp] theorem vouched_rng (s : State) : (vouched s).rng = s.rng := rfl
@[simp] theorem vouched_agenda (s : State) : (vouched s).agenda = s.agenda := rfl

theorem vouched_key_of_written (h : s.status.keyv = true) : (vouched s).key = s.key := if_pos h
theorem vouched_iv_of_written (h : s.status.ivv = true) : (vouched s).iv = s.iv := if_pos h
theorem vouched_tok_of_written (h : s.status.tokv = true) : (vouched s).tok = s.tok := if_pos h
theorem vouched_dkey_of_written (h : s.status.dkv = true) : (vouched s).dkey = s.dkey := if_pos h

@[simp] theorem vouched_vouched (s : State) : vouched (vouched s) = vouched s := by
  unfold vouched
  congr 1 <;> split_ifs <;> rfl

@[simp] theorem outcomeThrough_vouched_vouched (x : Result) :
    outcomeThrough vouched (outcomeThrough vouched x) = outcomeThrough vouched x := by
  cases x <;> simp [outcomeThrough]

/-! ## The operations commute with it, as each reads a register only where its flag is 1 -/

/-- Two branches that `f` takes to two others. -/
theorem ite_eq_apply {α β : Type} (f : α → β) {q : Prop} {d d' : Decidable q} {x y : α} {x' y' : β}
    (hx : q → x' = f x) (hy : ¬ q → y' = f y) : @ite β q d' x' y' = f (@ite α q d x y) := by
  by_cases h : q
  · rw [if_pos h, if_pos h, hx h]
  · rw [if_neg h, if_neg h, hy h]

theorem check_vouched {passes : Bool} {e : Err} {k k' : Result} (h : passes = true → k' = outcomeThrough vouched k) :
    check passes e (vouched s) k' = outcomeThrough vouched (check passes e s k) := by
  cases passes with
  | false => rfl
  | true => exact h rfl

theorem memRead_vouched {a n : Nat} {k k' : List Byte → Result}
    (h : ∀ bs, k' bs = outcomeThrough vouched (k bs)) :
    memRead (vouched s) a n k' = outcomeThrough vouched (memRead s a n k) := by
  refine ite_eq_apply (outcomeThrough vouched) (fun _ => ?_) fun _ => rfl
  rw [vouched_buf]
  cases Memory.readSeq s.buf a n with
  | none => rfl
  | some bs => exact h bs

theorem bufOperand_vouched {k k' : List Byte → Result} (h : ∀ bs, k' bs = outcomeThrough vouched (k bs)) :
    bufOperand (vouched s) k' = outcomeThrough vouched (bufOperand s k) := memRead_vouched h

theorem blockOperand_vouched {a : Nat} {k k' : Block → Result} (h : ∀ b, k' b = outcomeThrough vouched (k b)) :
    blockOperand (vouched s) a k' = outcomeThrough vouched (blockOperand s a k) :=
  memRead_vouched fun bs => by
    cases Block.ofList? bs with
    | none => rfl
    | some b => exact h b

theorem bufResult_vouched {v : List Byte} {k : State → Result}
    (h : k (vouched (holding v s)) = outcomeThrough vouched (k (holding v s))) :
    bufResult v (vouched s) k = outcomeThrough vouched (bufResult v s k) :=
  ite_eq_apply (outcomeThrough vouched) (fun _ => h) fun _ => rfl

theorem draw16_vouched {k k' : Block → State → Result}
    (h : ∀ r rest, k' r (vouched { s with rng := rest }) = outcomeThrough vouched (k r { s with rng := rest })) :
    draw16 (vouched s) k' = outcomeThrough vouched (draw16 s k) := by
  unfold draw16
  rw [vouched_rng]
  cases s.rng with
  | nil => rfl
  | cons r rest => exact h r rest

theorem exec_vouched (i : Instr) (s : State) : exec i (vouched s) = outcomeThrough vouched (exec i s) := by
  cases i with
  | fwdec =>
    refine check_vouched fun (hk : s.status.keyv = true) => check_vouched fun _ => blockOperand_vouched fun v =>
      check_vouched fun _ => memRead_vouched fun c => ?_
    rw [vouched_key_of_written hk]
    cases decryptBlock s.key v c with
    | none => rfl
    | some p => exact bufResult_vouched rfl
  | fwenc =>
    refine check_vouched fun (hk : s.status.keyv = true) => check_vouched fun _ =>
      draw16_vouched fun r rest => bufOperand_vouched (s := { s with rng := rest }) fun p => ?_
    rw [vouched_key_of_written (s := { s with rng := rest }) hk]
    exact bufResult_vouched rfl
  | cbcdec =>
    refine check_vouched fun (hops : (s.status.keyv && s.status.ivv) = true) => check_vouched fun _ =>
      bufOperand_vouched fun c => ?_
    obtain ⟨hk, hv⟩ := Bool.and_eq_true_iff.1 hops
    rw [vouched_key_of_written hk, vouched_iv_of_written hv]
    cases decryptBlock s.key s.iv c with
    | none => rfl
    | some p => exact bufResult_vouched rfl
  | cbcenc =>
    refine check_vouched fun (hops : (s.status.keyv && s.status.ivv) = true) => check_vouched fun _ =>
      bufOperand_vouched fun p => ?_
    obtain ⟨hk, hv⟩ := Bool.and_eq_true_iff.1 hops
    rw [vouched_key_of_written hk, vouched_iv_of_written hv]
    exact bufResult_vouched rfl
  | kdf =>
    refine check_vouched fun (htok : s.status.tokv = true) => ?_
    rw [vouched_tok_of_written htok]
    rfl
  | ivgen =>
    simp only [exec, execIvgen]
    exact draw16_vouched fun _ _ => rfl
  | xordec =>
    exact bufOperand_vouched fun bs => ite_eq_apply (outcomeThrough vouched) (fun _ => rfl) fun _ => rfl

theorem coreTurn_vouched (s : State) : coreTurn (vouched s) = outcomeThrough vouched (coreTurn s) := by
  refine ite_eq_apply (outcomeThrough vouched) (fun _ => ?_) fun _ => rfl
  unfold runCommand
  rw [vouched_cmd]
  cases decode s.cmd with
  | ok i => exact exec_vouched i s
  | error _ => rfl

theorem fairTurn_vouched (s : State) : fairTurn (vouched s) = outcomeThrough vouched (fairTurn s) :=
  ite_eq_apply (outcomeThrough vouched) (fun _ => rfl) fun _ => coreTurn_vouched s

/-! ## The host's actions commute with it, RESET and the reads of unwritten registers aside -/

theorem hostAct_vouched {a : HostAction} (hreset : a ≠ .reset) (hiv : a = .rdiv → s.status.ivv = true)
    (hdkey : a = .rddkey → s.status.dkv = true) :
    hostAct a (vouched s) = outcomeThrough vouched (hostAct a s) := by
  cases a with
  | reset => exact absurd rfl hreset
  | wkey k =>
    simp only [hostAct, hostWkey, vouched_status]
    split <;> rfl
  | wiv v =>
    simp only [hostAct, hostWiv, vouched_status]
    split <;> rfl
  | wtok t =>
    simp only [hostAct, hostWtok, vouched_status]
    split <;> rfl
  | ldbuf d =>
    exact congrArg Host.Outcome.next
      (ite_eq_apply vouched (fun _ => rfl) fun _ => ite_eq_apply vouched (fun _ => rfl) fun _ => rfl)
  | issue b | rdlen => exact congrArg Host.Outcome.next (ite_eq_apply vouched (fun _ => rfl) fun _ => rfl)
  | rdstat | rderr => rfl
  | rdbuf =>
    exact ite_eq_apply (outcomeThrough vouched) (fun _ => rfl) fun _ => bufOperand_vouched fun _ => rfl
  | rdiv =>
    rw [hostAct, hostRdiv, vouched_iv_of_written (hiv rfl)]
    exact congrArg Host.Outcome.next (ite_eq_apply vouched (fun _ => rfl) fun _ => rfl)
  | rddkey =>
    rw [hostAct, hostRddkey, vouched_dkey_of_written (hdkey rfl)]
    exact congrArg Host.Outcome.next (ite_eq_apply vouched (fun _ => rfl) fun _ => rfl)

/-- RESET clears every flag, so it leaves no register that is vouched for. -/
theorem hostAct_reset_vouched (s : State) :
    outcomeThrough vouched (hostAct .reset (vouched s)) = outcomeThrough vouched (hostAct .reset s) := rfl

/-! ## The step -/

/-- What a step shows is what it shows with the unwritten registers blotted out before it. -/
theorem step_vouched (hiv : ∀ rest, s.agenda = .host .rdiv :: rest → s.status.ivv = true)
    (hdkey : ∀ rest, s.agenda = .host .rddkey :: rest → s.status.dkv = true) :
    outcomeThrough vouched (step (vouched s)) = outcomeThrough vouched (step s) := by
  cases hag : s.agenda with
  | nil =>
    rw [step_of_agenda_nil hag, step_of_agenda_nil (s := vouched s) hag, fairTurn_vouched,
      outcomeThrough_vouched_vouched]
  | cons m rest =>
    cases m with
    | host a =>
      rw [step_of_agenda_host hag, step_of_agenda_host (s := vouched s) hag]
      by_cases hreset : a = .reset
      · subst hreset
        exact hostAct_reset_vouched { s with agenda := rest }
      · have h := hostAct_vouched (s := { s with agenda := rest }) hreset
          (by rintro rfl; exact hiv rest hag) (by rintro rfl; exact hdkey rest hag)
        exact (congrArg (outcomeThrough vouched) h).trans (outcomeThrough_vouched_vouched _)
    | wait =>
      rw [step_of_agenda_wait hag, step_of_agenda_wait (s := vouched s) hag, vouched_status, fairTurn_vouched]
      split
      · exact congrArg Host.Outcome.next (vouched_vouched (hostRdstat { s with agenda := rest }))
      · exact outcomeThrough_vouched_vouched _
    | core =>
      rw [step_of_agenda_core hag, step_of_agenda_core (s := vouched s) hag]
      have h := coreTurn_vouched { s with agenda := rest }
      exact (congrArg (outcomeThrough vouched) h).trans (outcomeThrough_vouched_vouched _)
    | coreDraw r =>
      rw [step_of_agenda_coreDraw hag, step_of_agenda_coreDraw (s := vouched s) hag]
      have h := coreTurn_vouched (answerWith r { s with agenda := rest })
      exact (congrArg (outcomeThrough vouched) h).trans (outcomeThrough_vouched_vouched _)
    | rng r =>
      rw [step_of_agenda_rng hag, step_of_agenda_rng (s := vouched s) hag]
      exact congrArg Host.Outcome.next (vouched_vouched (rngTurn r { s with agenda := rest }))

end Sys2Proof.Machine

namespace Sys2Proof

open Machine

/-- Settles O60: both steps show what the step from the one blotted state shows. -/
theorem unwrittenRegistersReachNothing : Obligations.UnwrittenRegistersReachNothing := by
  intro s s' hsame hiv hdkey
  have hstatus : s.status = s'.status := by simpa using congrArg State.status hsame
  have hagenda : s.agenda = s'.agenda := by simpa using congrArg State.agenda hsame
  rw [sameOutcome_iff, ← step_vouched hiv hdkey, hsame]
  exact step_vouched (by rwa [← hagenda, ← hstatus]) (by rwa [← hagenda, ← hstatus])

end Sys2Proof

/-!
The operations: what the buffer operations leave where they succeed, what each operation leaves alone, and which
of them draw (30_encoding.md rule R77, 41_cbc_pkcs7.md to 45_xordec.md).
-/

namespace Sys2Proof.Machine

variable {s t : State} {i : Instr}

/-! ## Injectivity of the derivation (R174) -/

theorem hexdigit_injective : Function.Injective hexdigit := by
  intro m n h
  have hm := m.isLt
  have hn := n.isLt
  have h' := congrArg BitVec.toNat h
  rw [hexdigit_toNat, hexdigit_toNat] at h'
  refine BitVec.eq_of_toNat_eq ?_
  split at h' <;> split at h' <;> omega

/-- A byte is its two nibbles. -/
theorem byte_eq_of_hex {x y : Byte} (hhigh : hexHigh x = hexHigh y) (hlow : hexLow x = hexLow y) : x = y := by
  have h4 := congrArg BitVec.toNat (hexdigit_injective hhigh)
  have h0 := congrArg BitVec.toNat (hexdigit_injective hlow)
  simp only [BitVec.extractLsb'_toNat, Nat.shiftRight_eq_div_pow] at h4 h0
  refine BitVec.eq_of_toNat_eq ?_
  omega

theorem kdfMask_injective (j : Nat) : Function.Injective (kdfMask j) := fun a b h => by
  have h' := congrArg (· ^^^ BitVec.ofNat 8 (kdfCounter j % 256)) h
  simpa only [kdfMask, byte_xor_cancel_right] using h'

theorem Token.bytes_injective : Function.Injective Token.bytes := fun t u h => by
  have h' := congrArg Token.ofList? h
  simpa using h'

theorem Block.bytes_injective : Function.Injective Block.bytes := fun b c h => by
  have h' := congrArg Block.ofList? h
  simpa using h'

/-- Both characters of a token byte give it back. -/
theorem derive_injective : Function.Injective derive := fun t u h => by
  refine Token.bytes_injective (List.ext_getElem rfl fun j hj hj' => kdfMask_injective j ?_)
  obtain ⟨hthigh, htlow⟩ := derive_getElem? t hj
  obtain ⟨huhigh, hulow⟩ := derive_getElem? u hj'
  rw [h, huhigh] at hthigh
  rw [h, hulow] at htlow
  exact (byte_eq_of_hex (Option.some.inj hthigh) (Option.some.inj htlow)).symm

/-! ## Decoding in two parts (R190) -/

theorem keystream_add_of_period {n : Nat} (hn : n % 84 = 0) (j : Nat) : keystream (j + n) = keystream j := by
  refine BitVec.eq_of_toNat_eq ?_
  rw [keystream_toNat, keystream_toNat, xorCounter_eq, xorCounter_eq]
  omega

theorem xorDecode_append {a : List Byte} (ha : a.length % 84 = 0) (b : List Byte) :
    xorDecode (a ++ b) = xorDecode a ++ xorDecode b := by
  simp only [xorDecode_eq_mapIdx, List.mapIdx_append, keystream_add_of_period ha]

/-! ## What an operation leaves alone (R42) -/

/-- DKEY and DKV are KDF's. -/
theorem exec_dkey (hi : i ≠ .kdf) (he : exec i s = .next t) :
    t.dkey = s.dkey ∧ t.status.dkv = s.status.dkv := by
  rcases exec_cases he with ⟨-, -, rfl⟩ | ⟨-, -, herr⟩ | hdone
  · exact ⟨rfl, rfl⟩
  · rw [herr]; exact ⟨rfl, rfl⟩
  · cases hdone with
    | kdf => exact absurd rfl hi
    | _ => exact ⟨rfl, rfl⟩

/-- IV and IVV are IVGEN's and the container operations'. -/
theorem exec_iv (hi : i ≠ .ivgen ∧ i ≠ .fwenc ∧ i ≠ .fwdec) (he : exec i s = .next t) :
    t.iv = s.iv ∧ t.status.ivv = s.status.ivv := by
  obtain ⟨hivgen, hfwenc, hfwdec⟩ := hi
  rcases exec_cases he with ⟨-, -, rfl⟩ | ⟨-, -, herr⟩ | hdone
  · exact ⟨rfl, rfl⟩
  · rw [herr]; exact ⟨rfl, rfl⟩
  · cases hdone with
    | ivgen => exact absurd rfl hivgen
    | fwenc => exact absurd rfl hfwenc
    | fwdec => exact absurd rfl hfwdec
    | _ => exact ⟨rfl, rfl⟩

/-- An operation that takes a draw, and has one, succeeds with it in IV (R140, R151). -/
theorem exec_draw {r : Block} {rest : List Block} (hd : takesDraw i s = true) (hr : s.rng = r :: rest)
    (he : exec i s = .next t) : t.err = .ok ∧ t.iv = r ∧ t.rng = rest := by
  rcases exec_next_cases he with ⟨-, hnone, -⟩ | ⟨hno, -⟩ | ⟨hok, -, -, ⟨-, -, htaken⟩ | ⟨hno, -⟩⟩
  · rw [hr] at hnone; cases hnone
  · rw [hd] at hno; cases hno
  · obtain ⟨hiv, hrest⟩ := List.cons.inj (htaken.symm.trans hr)
    exact ⟨hok, hiv, hrest⟩
  · rw [hd] at hno; cases hno

theorem exec_no_draw (hd : takesDraw i s = false) (he : exec i s = .next t) : t.rng = s.rng := by
  rcases exec_next_cases he with ⟨-, -, rfl⟩ | ⟨-, -, -, herr⟩ | ⟨-, -, -, ⟨hdraw, -⟩ | ⟨-, -, -, hr⟩⟩
  · rfl
  · rw [herr]; rfl
  · rw [hd] at hdraw; cases hdraw
  · exact hr

/-- The draws are IVGEN's and FWENC's (R141). -/
theorem exec_rng (hi : i ≠ .ivgen ∧ i ≠ .fwenc) (he : exec i s = .next t) : t.rng = s.rng := by
  obtain ⟨hivgen, hfwenc⟩ := hi
  refine exec_no_draw ?_ he
  cases i with
  | ivgen => exact absurd rfl hivgen
  | fwenc => exact absurd rfl hfwenc
  | _ => rfl

/-- BUF and LEN are the buffer operations'. -/
theorem exec_buffer (hi : i = .kdf ∨ i = .ivgen) (he : exec i s = .next t) : t.buf = s.buf ∧ t.len = s.len := by
  rcases exec_cases he with ⟨-, -, rfl⟩ | ⟨-, -, herr⟩ | hdone
  · exact ⟨rfl, rfl⟩
  · rw [herr]; exact ⟨rfl, rfl⟩
  · rcases hi with rfl | rfl <;> cases hdone <;> exact ⟨rfl, rfl⟩

theorem exec_xordec_len (he : exec .xordec s = .next t) : t.len = s.len := by
  obtain ⟨p, -, -, rfl⟩ := execXordec_eq_next.1 he
  rfl

/-- An error leaves BUF and LEN (R241). -/
theorem exec_buffer_of_error (he : exec i s = .next t) (hne : t.err ≠ .ok) : t.buf = s.buf ∧ t.len = s.len := by
  rcases exec_cases he with ⟨-, -, rfl⟩ | ⟨-, -, herr⟩ | hdone
  · exact ⟨rfl, rfl⟩
  · rw [herr]; exact ⟨rfl, rfl⟩
  · exact absurd hdone.err_eq hne

/-! ## The container operations and IV (R23) -/

/-- FWENC under another IV: the same state where it writes IV, else the same but for IV. -/
theorem execFwenc_with_iv (v : Block) (he : exec .fwenc s = .next t) :
    (Completes s .fwenc t ∧ exec .fwenc { s with iv := v } = .next t) ∨
      ((t = s ∨ t.err ≠ .ok) ∧ exec .fwenc { s with iv := v } = .next { t with iv := v }) := by
  rcases execFwenc_eq_next.1 he with
    ⟨hk, rfl⟩ | ⟨hk, hlong, rfl⟩ | ⟨hk, hfits, hr, rfl⟩ | ⟨hk, hfits, r, rest, p, hr, hc, hroom, rfl⟩
  · exact .inr ⟨.inr nofun, execFwenc_eq_next.2 (.inl ⟨hk, rfl⟩)⟩
  · exact .inr ⟨.inr nofun, execFwenc_eq_next.2 (.inr (.inl ⟨hk, hlong, rfl⟩))⟩
  · exact .inr ⟨.inl rfl, execFwenc_eq_next.2 (.inr (.inr (.inl ⟨hk, hfits, hr, rfl⟩)))⟩
  · exact .inl ⟨.fwenc hr hroom,
      execFwenc_eq_next.2 (.inr (.inr (.inr ⟨hk, hfits, r, rest, p, hr, hc, hroom, rfl⟩)))⟩

/-- FWDEC under another IV: the same state where it writes IV, else the same but for IV. -/
theorem execFwdec_with_iv (v : Block) (he : exec .fwdec s = .next t) :
    (Completes s .fwdec t ∧ exec .fwdec { s with iv := v } = .next t) ∨
      ((t = s ∨ t.err ≠ .ok) ∧ exec .fwdec { s with iv := v } = .next { t with iv := v }) := by
  rcases execFwdec_eq_next.1 he with ⟨hk, rfl⟩ | ⟨hk, hl, rfl⟩ | ⟨hk, hl, hbad, hv, rfl⟩ |
    ⟨hk, hok, w, c, hc, ⟨hpad, rfl⟩ | ⟨p, hp, hroom, rfl⟩⟩
  · exact .inr ⟨.inr nofun, execFwdec_eq_next.2 (.inl ⟨hk, rfl⟩)⟩
  · exact .inr ⟨.inr nofun, execFwdec_eq_next.2 (.inr (.inl ⟨hk, hl, rfl⟩))⟩
  · exact .inr ⟨.inr nofun, execFwdec_eq_next.2 (.inr (.inr (.inl ⟨hk, hl, hbad, hv, rfl⟩)))⟩
  · exact .inr ⟨.inr nofun,
      execFwdec_eq_next.2 (.inr (.inr (.inr ⟨hk, hok, w, c, hc, .inl ⟨hpad, rfl⟩⟩)))⟩
  · exact .inl ⟨.fwdec hc hroom,
      execFwdec_eq_next.2 (.inr (.inr (.inr ⟨hk, hok, w, c, hc, .inr ⟨p, hp, hroom, rfl⟩⟩)))⟩

/-! ## Waiting for the RNG, or completing (R142, R210) -/

theorem waitsForRng_iff : waitsForRng s = true ↔
    s.status.busy = true ∧ s.rng = [] ∧ ∃ i, decode s.cmd = .ok i ∧ takesDraw i s = true := by
  unfold waitsForRng asksForDraw
  cases decode s.cmd <;> simp [and_comm, and_left_comm]

theorem exec_of_wait (hd : takesDraw i s = true) (hr : s.rng = []) : exec i s = .next s := by
  cases i with
  | ivgen => exact execIvgen_eq_next.2 (.inl ⟨hr, rfl⟩)
  | fwenc =>
    obtain ⟨hk, hfits⟩ := Bool.and_eq_true_iff.1 hd
    exact execFwenc_eq_next.2 (.inr (.inr (.inl ⟨hk, hfits, hr, rfl⟩)))
  | fwdec | cbcdec | cbcenc | kdf | xordec => cases hd

/-- The CORE's move with a command in flight that selects an operation. -/
theorem coreTurn_of_decode (hb : s.status.busy = true) (hd : decode s.cmd = .ok i) : coreTurn s = exec i s := by
  simp [coreTurn, runCommand, hb, hd]

theorem coreTurn_of_waitsForRng (hw : waitsForRng s = true) : coreTurn s = .next s := by
  obtain ⟨hb, hr, i, hd, hdraw⟩ := waitsForRng_iff.1 hw
  rw [coreTurn_of_decode hb hd, exec_of_wait hdraw hr]

/-- A move of the CORE that does not wait ends the operation. -/
theorem busy_done_of_coreTurn (hb : s.status.busy = true) (hw : waitsForRng s = false)
    (h : coreTurn s = .next t) : t.status.busy = false ∧ t.status.done = true := by
  rcases coreTurn_cases h with ⟨hidle, -⟩ | ⟨-, i, hd, he⟩ | ⟨-, -, rfl⟩
  · rw [hb] at hidle; cases hidle
  · rcases exec_cases he with ⟨hdraw, hr, -⟩ | ⟨-, -, herr⟩ | hdone
    · rw [waitsForRng_iff.2 ⟨hb, hr, i, hd, hdraw⟩] at hw; cases hw
    · rw [herr]; exact ⟨rfl, rfl⟩
    · exact hdone.busy_done
  · exact ⟨rfl, rfl⟩

theorem exists_completion (hs : Coherent s) (hb : s.status.busy = true) (hw : waitsForRng s = false) :
    ∃ t, coreTurn s = .next t ∧ t.status.busy = false ∧ t.status.done = true := by
  obtain ⟨t, ht⟩ := exists_coreTurn hs
  exact ⟨t, ht, busy_done_of_coreTurn hb hw ht⟩

theorem coreTurn_keeps (h : coreTurn s = .next t) : t.agenda = s.agenda ∧ t.readings = s.readings := by
  rcases coreTurn_cases h with ⟨-, rfl⟩ | ⟨-, i, -, he⟩ | ⟨-, -, rfl⟩
  · exact ⟨rfl, rfl⟩
  · obtain ⟨-, -, -, -, -, -, hagenda, hreadings, -⟩ := exec_keeps he
    exact ⟨hagenda, hreadings⟩
  · exact ⟨rfl, rfl⟩

theorem fairTurn_of_not_waiting (hw : waitsForRng s = false) : fairTurn s = coreTurn s := by
  rw [fairTurn, hw]; rfl

theorem fairTurn_of_waiting (hw : waitsForRng s = true) : fairTurn s = .next (rngAnswers s) := by
  rw [fairTurn, hw]; rfl

theorem fairTurn_of_idle (hidle : s.status.busy = false) : fairTurn s = .next s := by
  simp [fairTurn, waitsForRng, asksForDraw, coreTurn, hidle]

/-- Whether an operation takes a draw is no matter of the moves to come or of what the RNG has given. -/
theorem takesDraw_congr (i : Instr) (s : State) (l : List Turn) (q : List Block) :
    takesDraw i { s with agenda := l, rng := q } = takesDraw i s := by
  cases i <;> rfl

/-- A CORE move whose draw is named is the operation with that draw in front, if it takes one (R77). -/
theorem coreTurn_answerWith {r : Block} {rest : List Turn} (hb : s.status.busy = true) (hd : decode s.cmd = .ok i) :
    coreTurn (answerWith r { s with agenda := rest }) =
      exec i { s with agenda := rest, rng := if takesDraw i s then r :: s.rng else s.rng } := by
  rw [← asksForDraw_of_decode hb hd]
  exact coreTurn_of_decode (s := answerWith r { s with agenda := rest }) hb hd

/-- The named draw is taken whole or not at all, and the earlier answers stay (R77). -/
theorem exec_named_draw {r : Block} {rest : List Turn}
    (he : exec i { s with agenda := rest, rng := if takesDraw i s then r :: s.rng else s.rng } = .next t) :
    t.rng = s.rng ∧ (takesDraw i s = true → t.err = .ok ∧ t.iv = r) := by
  cases hdraw : takesDraw i s with
  | true =>
    rw [hdraw, if_pos rfl] at he
    obtain ⟨hok, hiv, hrng⟩ := exec_draw ((takesDraw_congr ..).trans hdraw) rfl he
    exact ⟨hrng, fun _ => ⟨hok, hiv⟩⟩
  | false =>
    rw [hdraw, if_neg nofun] at he
    exact ⟨exec_no_draw (s := { s with agenda := rest }) ((takesDraw_congr i s rest s.rng).trans hdraw) he, nofun⟩

/-- Once the RNG has answered nothing waits for it. -/
theorem waitsForRng_rngAnswers (s : State) : waitsForRng (rngAnswers s) = false := by
  simp [waitsForRng]

/-- The command in flight on the state an error left is the state it was executed on (R242). -/
theorem issued_ended (e : Err) (hs : Coherent s) (hb : s.status.busy = true) :
    issued s.cmd (ended e s) = s := by
  obtain ⟨herr, hdone⟩ := coherent_busy hs hb
  have hflags : ({ s.status with busy := true, done := false } : Status) = s.status := by rw [← hb, ← hdone]
  simp only [issued, flagsIssued, ended_key, ended_iv, ended_tok, ended_dkey, ended_buf, ended_len, ended_status,
    ended_params, ended_rng, ended_agenda, ended_readings, ended_fresh, hflags, ← herr]

/-! ## Runs of a few steps (R276) -/

theorem run_succ_of_step {M : Host.Core} {x y : M.State} {n : Nat} (h : M.step x = .next y) :
    M.run (n + 1) x = M.run n y := by
  simp only [Host.Core.run, h]

theorem run_of_idle (hag : s.agenda = []) (hidle : s.status.busy = false) (n : Nat) :
    Sys2Proof.core.run n s = .next s := by
  have hstay : step s = .next s := by rw [step_of_agenda_nil hag, fairTurn_of_idle hidle]
  induction n with
  | zero => rfl
  | succ n ih => exact (run_succ_of_step (M := Sys2Proof.core) hstay).trans ih

/-- A wait on a block that is done reads STATUS once and ends. -/
theorem run_of_wait_done (hag : s.agenda = [.wait]) (hidle : s.status.busy = false)
    (hdone : s.status.done = true) (n : Nat) :
    Sys2Proof.core.run (n + 1) s = .next (hostRdstat { s with agenda := [] }) := by
  have hpoll : step s = .next (hostRdstat { s with agenda := [] }) := by
    rw [step_of_agenda_wait hag, hdone]; rfl
  exact (run_succ_of_step (M := Sys2Proof.core) hpoll).trans
    (run_of_idle (s := hostRdstat { s with agenda := [] }) rfl hidle n)

/-- With nothing named, or the host waiting for DONE, the step of a busy block is the fair move. -/
theorem step_eq_fairTurn (hs : Coherent s) (hb : s.status.busy = true)
    (hag : s.agenda = [] ∨ s.agenda = [.wait]) : step s = fairTurn s := by
  rcases hag with hag | hag
  · exact step_of_agenda_nil hag
  · obtain ⟨-, hdone⟩ := coherent_busy hs hb
    rw [step_of_agenda_wait hag, hdone]
    rfl

/-- By fair moves an operation completes within two steps, of which a second may be left over. -/
theorem exists_completion_run (hs : Coherent s) (hb : s.status.busy = true)
    (hag : s.agenda = [] ∨ s.agenda = [.wait]) :
    ∃ t k, (∀ n, Sys2Proof.core.run (n + 2) s = Sys2Proof.core.run (n + k) t) ∧ t.status.busy = false ∧
      t.status.done = true ∧ t.agenda = s.agenda ∧ t.readings = s.readings := by
  cases hw : waitsForRng s with
  | false =>
    obtain ⟨t, ht, hidle, hdone⟩ := exists_completion hs hb hw
    have hexec : step s = .next t := by rw [step_eq_fairTurn hs hb hag, fairTurn_of_not_waiting hw, ht]
    exact ⟨t, 1, fun n => run_succ_of_step (M := Sys2Proof.core) hexec, hidle, hdone, coreTurn_keeps ht⟩
  | true =>
    have hw' := waitsForRng_rngAnswers s
    obtain ⟨t, ht, hidle, hdone⟩ := exists_completion (s := rngAnswers s) hs hb hw'
    have hanswer : step s = .next (rngAnswers s) := by
      rw [step_eq_fairTurn hs hb hag, fairTurn_of_waiting hw]
    have hexec : step (rngAnswers s) = .next t := by
      rw [step_eq_fairTurn (s := rngAnswers s) hs hb hag, fairTurn_of_not_waiting hw', ht]
    exact ⟨t, 0, fun n => (run_succ_of_step (M := Sys2Proof.core) hanswer).trans (run_succ_of_step hexec), hidle,
      hdone, coreTurn_keeps (s := rngAnswers s) ht⟩

end Sys2Proof.Machine

namespace Sys2Proof

open Machine

/-! ## The obligations of the operations -/

/-- Settles O5: the RNG's answer to this very EXEC is the named draw, so the operation does not wait, and what it
takes is that draw or nothing. -/
theorem execTakesTheDrawItsLineNames : Obligations.ExecTakesTheDrawItsLineNames := by
  refine ⟨fun _ => rfl, ?_⟩
  rintro i s r rest ⟨hs, hb, hd⟩ hag
  obtain ⟨t, ht, hidle, hdone⟩ :=
    exists_completion (s := answerWith r { s with agenda := rest }) hs hb (waitsForRng_answerWith r)
  obtain ⟨hagenda, -⟩ := coreTurn_keeps ht
  refine ⟨t, (step_of_agenda_coreDraw hag).trans ht, hagenda, ?_⟩
  rw [coreTurn_answerWith hb hd] at ht
  obtain ⟨hrng, hdraw⟩ := exec_named_draw ht
  refine ⟨hrng, hidle, hdone, ?_, ?_⟩
  · rintro rfl
    exact hdraw rfl
  · rintro rfl hk hfits
    obtain ⟨hok, hiv⟩ := hdraw (Bool.and_eq_true_iff.2 ⟨hk, hfits⟩)
    obtain ⟨-, -, r', rest', p, -, -, rfl⟩ :=
      execFwenc_of_ok (s := { s with agenda := rest, rng := _ }) hb ht hidle hok
    obtain rfl : r' = r := hiv
    refine ⟨hok, rfl, encryptBlock s.key r' p, ?_⟩
    rw [content_ended, content_setIv, content_holding, container]

/-- Settles O8: the two characters of each token byte give it back. -/
theorem deriveIsInjective : Obligations.DeriveIsInjective := fun _ _ h => derive_injective h

/-- Settles O10: the ciphertext is as long as `cipherLength` says. -/
theorem cbcencReplacesTheBuffer : Obligations.CbcencReplacesTheBuffer := by
  intro s p hp hk hv hfits
  have hlen : (encryptBlock s.key s.iv p).length = 16 * (s.len / 16 + 1) := by
    rw [encryptBlock_length, content_length hp, cipherLength]
  exact ⟨_, execCbcenc_of_content (Bool.and_eq_true_iff.2 ⟨hk, hv⟩) hfits hp, content_holding _ s, hlen,
    fun a => read_holding_above, rfl⟩

/-- Settles O11: unpadding takes 1 to 16 bytes off a decryption, which is as long as the ciphertext. -/
theorem cbcdecReplacesTheBuffer : Obligations.CbcdecReplacesTheBuffer := by
  intro s c p hc hk hv h0 h16 hfits hp
  have hlen := content_length hc
  obtain ⟨hlt, hle⟩ := decryptBlock_length (p := p) hp (by omega)
  rw [hlen] at hlt hle
  exact ⟨_, execCbcdec_of_content hk hv hc h0 h16 hfits hp, content_holding p s, rfl, hlt, hle,
    fun a => read_holding_above, rfl⟩

/-- Settles O12: the container is as long as `containerLength` says. -/
theorem fwencReplacesTheBuffer : Obligations.FwencReplacesTheBuffer := by
  intro s p r rest hp hk hfits hr
  have hlen : (container s.key r p).length = 16 + 16 * (s.len / 16 + 1) := by
    rw [container_length, content_length hp, containerLength, cipherLength]
  exact ⟨_, execFwenc_of_content hk hfits hr hp, content_holding _ { s with rng := rest }, hlen,
    fun a => read_holding_above, rfl⟩

/-- Settles O13: behind its 16-byte IV the container is a ciphertext, which loses 1 to 16 bytes. -/
theorem fwdecReplacesTheBuffer : Obligations.FwdecReplacesTheBuffer := by
  intro s v c p hc hk h0 h16 hfits hp
  obtain ⟨hl, hlen, -, -⟩ := readSeq_of_content_append hc
  obtain ⟨hlt, hle⟩ := decryptBlock_length (p := p) hp h16
  refine ⟨_, execFwdec_of_content hk hc h0 h16 hfits hp, content_holding p s, rfl, ?_, ?_,
    fun a => read_holding_above, rfl⟩
  · change p.length + 17 ≤ s.len
    omega
  · change s.len ≤ p.length + 32
    omega

/-- Settles O14: as many bytes as LEN are written over BUF, each masked by the keystream byte of its index. -/
theorem xordecMasksTheBufferInPlace : Obligations.XordecMasksTheBufferInPlace := by
  intro s b hb hfits
  have hlen : (xorDecode b).length = s.len := by rw [xorDecode_length, content_length hb]
  obtain ⟨-, hread⟩ := (Memory.readSeq_eq_some_iff _ _ _ _).1 hb
  refine ⟨_, execXordec_of_content hb hfits, content_writeSeq hlen, fun a ha => ?_, fun a ha => ?_, rfl⟩
  · have hold := hread a ha
    rw [Nat.zero_add] at hold
    rw [ended_buf, Memory.read_writeSeq, if_pos (by omega), Nat.sub_zero, xorDecode_getElem?, hold]
  · rw [ended_buf, Memory.read_writeSeq, if_neg (by omega)]

/-- Settles O15: neither operation is a buffer operation, KDF does not draw and IVGEN does not derive. -/
theorem registerOperationsLeaveTheRestAlone : Obligations.RegisterOperationsLeaveTheRestAlone := by
  intro i s t hi he
  obtain ⟨hbuf, hlen⟩ := exec_buffer hi he
  obtain ⟨hkey, htok, hcmd, hkeyv, htokv, hparams, hagenda, hreadings, hfresh⟩ := exec_keeps he
  refine ⟨fun a => by rw [hbuf], hlen, hkey, htok, hcmd, hkeyv, htokv, hparams, hagenda, hreadings, hfresh, ?_, ?_⟩
  · rintro rfl
    obtain ⟨hiv, hivv⟩ := exec_iv (by decide) he
    exact ⟨hiv, hivv, exec_rng (by decide) he⟩
  · rintro rfl
    exact exec_dkey (by decide) he

/-- Settles O16: old and new buffer are each one the block can have, so no byte above either LEN has a value. -/
theorem bufferOperationsLeaveTheRestAlone : Obligations.BufferOperationsLeaveTheRestAlone := by
  intro i s t hi hs he
  have hnone : ∀ a, t.len ≤ a → Memory.read t.buf a = none :=
    fun _ => coherent_read_above (coherent_buffer_of_exec hs he)
  obtain ⟨hkey, htok, hcmd, hkeyv, htokv, hparams, hagenda, hreadings, hfresh⟩ := exec_keeps he
  obtain ⟨hdkey, hdkv⟩ := exec_dkey (by rcases hi with rfl | rfl | rfl | rfl | rfl <;> decide) he
  refine ⟨fun a hsa hta => by rw [hnone a hta, coherent_read_above hs hsa], hnone, exec_buffer_of_error he, hkey,
    htok, hdkey, hcmd, hkeyv, htokv, hdkv, hparams, hagenda, hreadings, hfresh, ?_, fun hi => ?_, ?_⟩
  · rintro rfl
    exact exec_xordec_len he
  · obtain ⟨hiv, hivv⟩ := exec_iv (by rcases hi with rfl | rfl | rfl <;> decide) he
    exact ⟨hiv, hivv, exec_rng (by rcases hi with rfl | rfl | rfl <;> decide) he⟩
  · rintro rfl
    exact exec_rng (by decide) he

/-- Settles O27: the keystream starts again at every multiple of 84. -/
theorem xorDecodeSplitsAtThePeriod : Obligations.XorDecodeSplitsAtThePeriod := fun _ b ha => xorDecode_append ha b

/-- Settles O32: a container begins with its draw and is a function of key, draw and plaintext. -/
theorem containersAreEqualIffTheDrawsAre : Obligations.ContainersAreEqualIffTheDrawsAre := by
  rintro s s' t t' r r' rest rest' ⟨-, hb, -⟩ ⟨-, hb', -⟩ hkey hcontent hr hr' he he'
    ⟨hidle, -, hok⟩ ⟨hidle', -, hok'⟩
  obtain ⟨-, -, d, rest, p, hd, hp, rfl⟩ := execFwenc_of_ok hb he hidle hok
  obtain ⟨-, -, d', rest', p', hd', hp', rfl⟩ := execFwenc_of_ok hb' he' hidle' hok'
  obtain ⟨rfl, -⟩ := List.cons.inj (hr.symm.trans hd)
  obtain ⟨rfl, -⟩ := List.cons.inj (hr'.symm.trans hd')
  obtain rfl : p = p' := Option.some.inj (hp.symm.trans (hcontent.trans hp'))
  simp only [content_ended, content_setIv, content_holding, Option.some.injEq, hkey]
  constructor
  · intro h
    obtain ⟨hdraw, -⟩ := List.append_inj h rfl
    exact Block.bytes_injective hdraw
  · rintro rfl
    rfl

/-- Settles O34: an operation that succeeds writes IV, and one that does not leaves it. -/
theorem containerOperationsDoNotReadIv : Obligations.ContainerOperationsDoNotReadIv := by
  rintro i s t v hi ⟨-, hb, -⟩ he
  have hcases : (Completes s i t ∧ exec i { s with iv := v } = .next t) ∨
      ((t = s ∨ t.err ≠ .ok) ∧ exec i { s with iv := v } = .next { t with iv := v }) := by
    rcases hi with rfl | rfl
    · exact execFwenc_with_iv v he
    · exact execFwdec_with_iv v he
  rcases hcases with ⟨hdone, h⟩ | ⟨hnot, h⟩
  · exact ⟨fun _ => h, fun hfail => absurd ⟨hdone.busy_done.1, hdone.busy_done.2, hdone.err_eq⟩ hfail⟩
  · refine ⟨fun hsucc => ?_, fun _ => h⟩
    obtain ⟨hidle, -, hok⟩ := hsucc
    rcases hnot with rfl | hne
    · rw [hb] at hidle; cases hidle
    · exact absurd hok hne

/-- Settles O42: issuing the command again undoes what the error wrote. -/
theorem aFailedCommandFailsAgain : Obligations.AFailedCommandFailsAgain := by
  intro s t hs hb h hne
  rcases coreTurn_of_busy hb h with rfl | ⟨-, hok | herr⟩
  · exact absurd (coherent_busy hs hb).1 hne
  · exact absurd hok hne
  · have hcmd : t.cmd = s.cmd := by rw [herr]; rfl
    have hback : issued t.cmd t = s := by rw [hcmd, herr, issued_ended t.err hs hb]
    rwa [hback]

/-- Settles O43: of the outcomes of an operation in flight only a completion is a success, and it has taken
exactly the draw it needed. -/
theorem onlyIvgenAndFwencDraw : Obligations.OnlyIvgenAndFwencDraw := by
  rintro i s t ⟨-, hb, -⟩ he
  rcases exec_next_cases he with ⟨-, -, rfl⟩ | ⟨-, hne, -, herr⟩ |
    ⟨hok, hidle, hdone, ⟨-, hi, hr⟩ | ⟨-, hivgen, hfwenc, hr⟩⟩
  · refine .inr ⟨?_, rfl⟩
    rintro ⟨-, hidle, -⟩
    rw [hb] at hidle; cases hidle
  · refine .inr ⟨?_, by rw [herr]; rfl⟩
    rintro ⟨-, -, -, hok⟩
    exact hne hok
  · exact .inl ⟨hi, ⟨hidle, hdone, hok⟩, hr⟩
  · refine .inr ⟨?_, hr⟩
    rintro ⟨rfl | rfl, -⟩
    · exact hivgen rfl
    · exact hfwenc rfl

/-- Settles O44: a move that does not wait completes. -/
theorem execWaitsForTheRngOrCompletes : Obligations.ExecWaitsForTheRngOrCompletes := by
  intro s hs hb
  cases hw : waitsForRng s with
  | true => exact .inl ⟨rfl, coreTurn_of_waitsForRng hw⟩
  | false => exact .inr ⟨rfl, exists_completion hs hb hw⟩

/-- Settles O45: at most one answer of the RNG, then EXEC; the wait polls the block that is done. -/
theorem issuedOperationsComplete : Obligations.IssuedOperationsComplete := by
  refine fun s hs hb => ⟨fun hag => ?_, fun hag => ?_⟩
  · obtain ⟨t, k, hrun, hidle, hdone, htag, -⟩ := exists_completion_run hs hb (.inl hag)
    exact ⟨t, (hrun 0).trans (run_of_idle (htag.trans hag) hidle _), hidle, hdone⟩
  · obtain ⟨t, k, hrun, hidle, hdone, htag, hreadings⟩ := exists_completion_run hs hb (.inr hag)
    have hwait := run_of_wait_done (htag.trans hag) hidle hdone k
    rw [Nat.add_comm k 1, ← hrun 1] at hwait
    exact ⟨_, hwait, rfl, hidle, hdone, by rw [← hreadings]; rfl⟩

end Sys2Proof

/-!
The host's actions and the steps: what a busy block drops, what a host can learn, and which moves change the flags
and the registers (46_host_actions.md rule R209, 60_exceptions.md rule R245, 10_state.md rules R22 to R32).
-/

namespace Sys2Proof.Machine

variable {s t : State} {a : HostAction} {i : Instr}

/-! ## Decoding and encoding (R70, R71) -/

theorem decode_encode (i : Instr) : decode (encode i) = .ok i := by
  cases i <;> rfl

/-- Only the seven bytes below 0x07 select an operation. -/
theorem encode_of_decode {b : Byte} (h : decode b = .ok i) : encode i = b := by
  have hlt : b.toNat < 7 := by
    by_contra hge
    obtain ⟨e, he⟩ := (decode_eq_error_iff b).2 (by omega)
    rw [h] at he
    cases he
  obtain ⟨n, hn, rfl⟩ : ∃ n, n < 7 ∧ b = BitVec.ofNat 8 n := ⟨b.toNat, hlt, by simp⟩
  interval_cases n <;> cases h <;> rfl

/-! ## A busy block, and arguments that do not fit (R209) -/

/-- A busy block drops every write. -/
theorem hostAct_write_of_busy (hb : s.status.busy = true) (ha : (itemWritten a).isSome = true) :
    hostAct a s = .next s := by
  cases a with
  | wkey | wiv | wtok | ldbuf | issue =>
    simp only [hostAct, hostWkey, hostWiv, hostWtok, hostLdbuf, hostIssue, hb, if_true]
  | reset | rdstat | rderr | rdlen | rdbuf | rdiv | rddkey => cases ha

/-- A busy block answers a result read with a free value. -/
theorem hostAct_resultRead_of_busy (hb : s.status.busy = true)
    (ha : a = .rdlen ∨ a = .rdbuf ∨ a = .rdiv ∨ a = .rddkey) : ∃ r, hostAct a s = .next (recordFree r s) := by
  rcases ha with rfl | rfl | rfl | rfl
  · exact ⟨_, by rw [hostAct, hostRdlen, if_pos hb]⟩
  · exact ⟨_, by rw [hostAct, hostRdbuf, if_pos hb]⟩
  · exact ⟨_, by rw [hostAct, hostRdiv, hb, Bool.true_or, if_pos rfl]⟩
  · exact ⟨_, by rw [hostAct, hostRddkey, hb, Bool.true_or, if_pos rfl]⟩

theorem hostAct_of_illFormed (h : a.wf s.params = false) : hostAct a s = .next s := by
  cases a with
  | wkey k => exact hostAct_wkey_of_length_ne (of_decide_eq_false h)
  | wiv v => exact hostAct_wiv_of_length_ne (of_decide_eq_false h)
  | wtok k => exact hostAct_wtok_of_length_ne (of_decide_eq_false h)
  | ldbuf d => exact hostAct_ldbuf_of_not_fits h
  | reset | issue | rdstat | rderr | rdlen | rdbuf | rdiv | rddkey => cases h

/-! ## The result reads of an idle block (R207, R208) -/

theorem hostAct_rdlen_of_idle (h : s.status.busy = false) : hostAct .rdlen s = .next (record (.len s.len) s) := by
  simp [hostAct, hostRdlen, h]

theorem hostAct_rdbuf_of_idle {p : List Byte} (h : s.status.busy = false) (hp : content s = some p) :
    hostAct .rdbuf s = .next (record (.buf p) s) := by
  rw [hostAct, hostRdbuf, h, if_neg nofun, bufOperand_of_content _ hp]

theorem hostAct_rdiv_of_idle (h : s.status.busy = false) : hostAct .rdiv s = .next
    (if s.status.ivv then record (.iv s.iv) s else recordFree (.iv (Config.freeBlock s.fresh s.iv)) s) := by
  cases hv : s.status.ivv <;> simp [hostAct, hostRdiv, h, hv]

theorem hostAct_rddkey_of_idle (h : s.status.busy = false) : hostAct .rddkey s = .next
    (if s.status.dkv then record (.dkey s.dkey) s else recordFree (.dkey (Config.freeBlock s.fresh s.dkey)) s) := by
  cases hv : s.status.dkv <;> simp [hostAct, hostRddkey, h, hv]

/-! ## What no host action reads (R245) -/

/-- The state with other contents in KEY and TOK. -/
def withSecrets (k : Block) (t : Token) (s : State) : State := { s with key := k, tok := t }

/-- Of what is read from the buffer only what is done with it counts. -/
theorem outcomeThrough_bufOperand_congr {f : State → State} {k k' : List Byte → Result}
    (h : ∀ bs, outcomeThrough f (k' bs) = outcomeThrough f (k bs)) :
    outcomeThrough f (bufOperand s k') = outcomeThrough f (bufOperand s k) := by
  unfold bufOperand memRead
  split
  · split
    · exact h _
    · rfl
  · rfl

/-- With other contents in KEY and TOK an action has the same outcome but for them. -/
theorem hostAct_withSecrets (a : HostAction) (s : State) (k : Block) (t : Token) :
    outcomeThrough (withSecrets k t) (hostAct a (withSecrets k t s)) =
      outcomeThrough (withSecrets k t) (hostAct a s) := by
  have hnext {u' u : State} (h : u' = withSecrets k t u) :
      outcomeThrough (withSecrets k t) (.next u') = outcomeThrough (withSecrets k t) (.next u) := by
    rw [h]; rfl
  cases a with
  | reset | rdstat | rderr => rfl
  | wkey d =>
    simp only [hostAct, hostWkey, withSecrets]
    split <;> rfl
  | wiv v =>
    simp only [hostAct, hostWiv, withSecrets]
    split <;> rfl
  | wtok d =>
    simp only [hostAct, hostWtok, withSecrets]
    split <;> rfl
  | ldbuf d =>
    exact hnext (ite_eq_apply (withSecrets k t) (fun _ => rfl) fun _ =>
      ite_eq_apply (withSecrets k t) (fun _ => rfl) fun _ => rfl)
  | issue | rdlen | rdiv | rddkey => exact hnext (ite_eq_apply (withSecrets k t) (fun _ => rfl) fun _ => rfl)
  | rdbuf =>
    cases hb : s.status.busy with
    | true => simp only [hostAct, hostRdbuf, withSecrets, hb]; rfl
    | false =>
      simp only [hostAct, hostRdbuf, withSecrets, hb]
      exact outcomeThrough_bufOperand_congr (s := s) fun _ => rfl

/-! ## BUSY and DONE (R32) -/

/-- An EXEC leaves BUSY and DONE, or ends the operation in flight, not waiting for the RNG. -/
theorem coreTurn_busy_done (h : coreTurn s = .next t) :
    (t.status.busy = s.status.busy ∧ t.status.done = s.status.done) ∨
      (s.status.busy = true ∧ waitsForRng s = false ∧ t.status.busy = false ∧ t.status.done = true) := by
  cases hb : s.status.busy with
  | false =>
    rw [coreTurn, hb, if_neg nofun] at h
    cases h
    exact .inl ⟨hb, rfl⟩
  | true =>
    cases hw : waitsForRng s with
    | true =>
      rw [coreTurn_of_waitsForRng hw] at h
      cases h
      exact .inl ⟨hb, rfl⟩
    | false => exact .inr ⟨rfl, rfl, busy_done_of_coreTurn hb hw h⟩

theorem fairTurn_busy_done (h : fairTurn s = .next t) :
    (t.status.busy = s.status.busy ∧ t.status.done = s.status.done) ∨
      (s.status.busy = true ∧ waitsForRng s = false ∧ t.status.busy = false ∧ t.status.done = true) := by
  rcases fairTurn_cases h with ⟨-, rfl⟩ | ⟨-, hcore⟩
  · exact .inl ⟨rfl, rfl⟩
  · exact coreTurn_busy_done hcore

theorem HostEffect.busy_done (h : HostEffect s a t) :
    (t.status.busy = s.status.busy ∧ t.status.done = s.status.done) ∨
      (s.status.busy = false ∧ ∃ b, a = .issue b) ∨ a = .reset := by
  cases h with
  | reset => exact .inr (.inr rfl)
  | issue hb => exact .inr (.inl ⟨hb, _, rfl⟩)
  | dropped | wkey | wiv | wtok | ldbuf | record | recordFree => exact .inl ⟨rfl, rfl⟩

/-- The next move is an EXEC that can end: one whose draw is named, or one that does not wait for the RNG. -/
def ExecEnabled (s : State) : Prop :=
  (∃ r rest, s.agenda = .coreDraw r :: rest) ∨
    (waitsForRng s = false ∧
      (s.agenda = [] ∨ (∃ rest, s.agenda = .wait :: rest) ∨ ∃ rest, s.agenda = .core :: rest))

/-- A step leaves BUSY and DONE, or it is an ISSUE, a RESET or an enabled EXEC. -/
theorem step_busy_done (h : step s = .next t) :
    (t.status.busy = s.status.busy ∧ t.status.done = s.status.done) ∨
      (s.status.busy = false ∧ ∃ b rest, s.agenda = .host (.issue b) :: rest) ∨
      (∃ rest, s.agenda = .host .reset :: rest) ∨
      (s.status.busy = true ∧ ExecEnabled s ∧ t.status.busy = false ∧ t.status.done = true) := by
  rcases step_cases h with ⟨hag, hfair⟩ | ⟨a, rest, hag, hhost⟩ | ⟨rest, -, -, rfl⟩ | ⟨rest, hag, -, hfair⟩ |
    ⟨rest, hag, hcore⟩ | ⟨r, rest, hag, hcore⟩ | ⟨r, rest, -, rfl⟩
  · exact (fairTurn_busy_done hfair).imp_right fun ⟨hb, hw, hend⟩ =>
      .inr (.inr ⟨hb, .inr ⟨hw, .inl hag⟩, hend⟩)
  · rcases (hostEffect_of_hostAct hhost).busy_done with hstay | ⟨hidle, b, rfl⟩ | rfl
    · exact .inl hstay
    · exact .inr (.inl ⟨hidle, b, rest, hag⟩)
    · exact .inr (.inr (.inl ⟨rest, hag⟩))
  · exact .inl ⟨rfl, rfl⟩
  · exact (fairTurn_busy_done hfair).imp_right fun ⟨hb, hw, hend⟩ =>
      .inr (.inr ⟨hb, .inr ⟨hw, .inr (.inl ⟨rest, hag⟩)⟩, hend⟩)
  · exact (coreTurn_busy_done hcore).imp_right fun ⟨hb, hw, hend⟩ =>
      .inr (.inr ⟨hb, .inr ⟨hw, .inr (.inr ⟨rest, hag⟩)⟩, hend⟩)
  · exact (coreTurn_busy_done hcore).imp_right fun ⟨hb, _, hend⟩ =>
      .inr (.inr ⟨hb, .inl ⟨r, rest, hag⟩, hend⟩)
  · exact .inl ⟨rfl, rfl⟩

/-! ## The valid flags (R31) -/

/-- Each valid flag that is set in `s` is set in `t`. -/
def ValidFlagsStay (s t : State) : Prop :=
  (s.status.keyv = true → t.status.keyv = true) ∧ (s.status.ivv = true → t.status.ivv = true) ∧
    (s.status.tokv = true → t.status.tokv = true) ∧ (s.status.dkv = true → t.status.dkv = true)

theorem validFlagsStay_of_exec (he : exec i s = .next t) : ValidFlagsStay s t := by
  rcases exec_cases he with ⟨-, -, rfl⟩ | ⟨-, -, herr⟩ | hdone
  · exact ⟨id, id, id, id⟩
  · rw [herr]; exact ⟨id, id, id, id⟩
  · cases hdone with
    | fwdec | fwenc | ivgen => exact ⟨id, fun _ => rfl, id, id⟩
    | kdf => exact ⟨id, id, id, fun _ => rfl⟩
    | cbcdec | cbcenc | xordec => exact ⟨id, id, id, id⟩

theorem validFlagsStay_of_coreTurn (h : coreTurn s = .next t) : ValidFlagsStay s t := by
  rcases coreTurn_cases h with ⟨-, rfl⟩ | ⟨-, i, -, he⟩ | ⟨-, -, rfl⟩
  · exact ⟨id, id, id, id⟩
  · exact validFlagsStay_of_exec he
  · exact ⟨id, id, id, id⟩

theorem validFlagsStay_of_fairTurn (h : fairTurn s = .next t) : ValidFlagsStay s t := by
  rcases fairTurn_cases h with ⟨-, rfl⟩ | ⟨-, hcore⟩
  · exact ⟨id, id, id, id⟩
  · exact validFlagsStay_of_coreTurn hcore

theorem validFlagsStay_of_hostAct (ha : a ≠ .reset) (h : hostAct a s = .next t) : ValidFlagsStay s t := by
  cases hostEffect_of_hostAct h with
  | reset => exact absurd rfl ha
  | wkey => exact ⟨fun _ => rfl, id, id, id⟩
  | wiv => exact ⟨id, fun _ => rfl, id, id⟩
  | wtok => exact ⟨id, id, fun _ => rfl, id⟩
  | dropped | ldbuf | issue | record | recordFree => exact ⟨id, id, id, id⟩

/-! ## The writers of the registers (R22 to R28, R42) -/

/-- Every change of a register from `s` to `t` is the CORE's: KEY, TOK and CMD stay, DKEY is a KDF's, IV is the draw
(`drawn`) or the IV of a container, and BUF and LEN are those of a buffer operation that has succeeded. -/
def WrittenByCore (drawn : Prop) (s t : State) : Prop :=
  (t.key = s.key ∧ t.tok = s.tok ∧ t.cmd = s.cmd) ∧
  (t.dkey ≠ s.dkey → s.status.busy = true ∧ decode s.cmd = .ok .kdf ∧ t.dkey = derive s.tok) ∧
  (t.iv ≠ s.iv → s.status.busy = true ∧ t.err = .ok ∧
    (((decode s.cmd = .ok .ivgen ∨ decode s.cmd = .ok .fwenc) ∧ drawn) ∨
      (decode s.cmd = .ok .fwdec ∧ Memory.readSeq s.buf 0 16 = some t.iv.bytes))) ∧
  (t.buf ≠ s.buf ∨ t.len ≠ s.len → s.status.busy = true ∧ t.err = .ok ∧
    ∃ i, decode s.cmd = .ok i ∧ i ≠ .kdf ∧ i ≠ .ivgen ∧ (i = .xordec → t.len = s.len))

/-- A move that changes none of these registers. -/
theorem writtenByCore_of_eq {drawn : Prop} (hregs : t.key = s.key ∧ t.tok = s.tok ∧ t.cmd = s.cmd)
    (hdkey : t.dkey = s.dkey) (hiv : t.iv = s.iv) (hbuf : t.buf = s.buf) (hlen : t.len = s.len) :
    WrittenByCore drawn s t :=
  ⟨hregs, absurd hdkey, absurd hiv, fun h => h.elim (absurd hbuf) (absurd hlen)⟩

theorem writtenByCore_of_exec (hb : s.status.busy = true) (hd : decode s.cmd = .ok i)
    (he : exec i s = .next t) : WrittenByCore (s.rng = t.iv :: t.rng) s t := by
  rcases exec_cases he with ⟨-, -, rfl⟩ | ⟨-, -, herr⟩ | hdone
  · exact writtenByCore_of_eq ⟨rfl, rfl, rfl⟩ rfl rfl rfl rfl
  · rw [herr]
    exact writtenByCore_of_eq ⟨rfl, rfl, rfl⟩ rfl rfl rfl rfl
  · cases hdone with
    | fwdec hc =>
      obtain ⟨-, -, hv, -⟩ := readSeq_of_content_append hc
      exact ⟨⟨rfl, rfl, rfl⟩, absurd rfl, fun _ => ⟨hb, rfl, .inr ⟨hd, hv⟩⟩,
        fun _ => ⟨hb, rfl, _, hd, nofun, nofun, nofun⟩⟩
    | fwenc hr =>
      exact ⟨⟨rfl, rfl, rfl⟩, absurd rfl, fun _ => ⟨hb, rfl, .inl ⟨.inr hd, hr⟩⟩,
        fun _ => ⟨hb, rfl, _, hd, nofun, nofun, nofun⟩⟩
    | cbcdec | cbcenc =>
      exact ⟨⟨rfl, rfl, rfl⟩, absurd rfl, absurd rfl, fun _ => ⟨hb, rfl, _, hd, nofun, nofun, nofun⟩⟩
    | kdf => exact ⟨⟨rfl, rfl, rfl⟩, fun _ => ⟨hb, hd, rfl⟩, absurd rfl, fun h => h.elim (absurd rfl) (absurd rfl)⟩
    | ivgen hr =>
      exact ⟨⟨rfl, rfl, rfl⟩, absurd rfl, fun _ => ⟨hb, rfl, .inl ⟨.inl hd, hr⟩⟩,
        fun h => h.elim (absurd rfl) (absurd rfl)⟩
    | xordec =>
      exact ⟨⟨rfl, rfl, rfl⟩, absurd rfl, absurd rfl, fun _ => ⟨hb, rfl, _, hd, nofun, nofun, fun _ => rfl⟩⟩

theorem writtenByCore_of_coreTurn (h : coreTurn s = .next t) : WrittenByCore (s.rng = t.iv :: t.rng) s t := by
  rcases coreTurn_cases h with ⟨-, rfl⟩ | ⟨hb, i, hd, he⟩ | ⟨-, -, rfl⟩
  · exact writtenByCore_of_eq ⟨rfl, rfl, rfl⟩ rfl rfl rfl rfl
  · exact writtenByCore_of_exec hb hd he
  · exact writtenByCore_of_eq ⟨rfl, rfl, rfl⟩ rfl rfl rfl rfl

theorem writtenByCore_of_fairTurn (h : fairTurn s = .next t) : WrittenByCore (s.rng = t.iv :: t.rng) s t := by
  rcases fairTurn_cases h with ⟨-, rfl⟩ | ⟨-, hcore⟩
  · exact writtenByCore_of_eq ⟨rfl, rfl, rfl⟩ rfl rfl rfl rfl
  · exact writtenByCore_of_coreTurn hcore

/-- What an IV that was drawn in a step was drawn from: the draw the CORE's move names, or the RNG's oldest answer. -/
def DrawnInStep (s t : State) : Prop :=
  (∃ rest, s.agenda = .coreDraw t.iv :: rest ∧ t.rng = s.rng) ∨ s.rng = t.iv :: t.rng

theorem WrittenByCore.mono {drawn drawn' : Prop} (h : WrittenByCore drawn s t) (himp : drawn → drawn') :
    WrittenByCore drawn' s t := by
  obtain ⟨hregs, hdkey, hiv, hbuf⟩ := h
  refine ⟨hregs, hdkey, fun hne => ?_, hbuf⟩
  obtain ⟨hb, hok, ⟨hop, hdrawn⟩ | hfwdec⟩ := hiv hne
  · exact ⟨hb, hok, .inl ⟨hop, himp hdrawn⟩⟩
  · exact ⟨hb, hok, .inr hfwdec⟩

/-- What is taken after the named draw was answered is that draw, or, where none is asked for, an older answer. -/
theorem drawnInStep_of_answerWith {r : Block} {rest : List Turn} (hag : s.agenda = .coreDraw r :: rest)
    (hr : (answerWith r { s with agenda := rest }).rng = t.iv :: t.rng) : DrawnInStep s t := by
  rw [answerWith_rng] at hr
  split at hr
  · obtain ⟨rfl, hrest⟩ := List.cons.inj hr
    exact .inl ⟨rest, hag, hrest.symm⟩
  · exact .inr hr

/-- A step that is no host action writes as the CORE does. -/
theorem writtenByCore_of_step (h : step s = .next t) (hag : ∀ a rest, s.agenda ≠ .host a :: rest) :
    WrittenByCore (DrawnInStep s t) s t := by
  rcases step_cases h with ⟨-, hfair⟩ | ⟨a, rest, hhost, -⟩ | ⟨rest, -, -, rfl⟩ | ⟨rest, -, -, hfair⟩ |
    ⟨rest, -, hcore⟩ | ⟨r, rest, hdraw, hcore⟩ | ⟨r, rest, -, rfl⟩
  · exact (writtenByCore_of_fairTurn hfair).mono .inr
  · exact absurd hhost (hag a rest)
  · exact writtenByCore_of_eq ⟨rfl, rfl, rfl⟩ rfl rfl rfl rfl
  · exact (writtenByCore_of_fairTurn hfair).mono .inr
  · exact (writtenByCore_of_coreTurn (s := { s with agenda := rest }) hcore).mono .inr
  · exact (writtenByCore_of_coreTurn (s := answerWith r { s with agenda := rest }) hcore).mono fun hr =>
      drawnInStep_of_answerWith hdraw hr
  · exact writtenByCore_of_eq ⟨rfl, rfl, rfl⟩ rfl rfl rfl rfl

/-- The registers a host action other than RESET writes, each by the action of its name while BUSY is 0. -/
theorem HostEffect.registers (h : HostEffect s a t) (ha : a ≠ .reset) :
    (t.key ≠ s.key → s.status.busy = false ∧ a = .wkey t.key.bytes) ∧
    (t.tok ≠ s.tok → s.status.busy = false ∧ a = .wtok t.tok.bytes) ∧
    (t.cmd ≠ s.cmd → s.status.busy = false ∧ a = .issue t.cmd) ∧
    t.dkey = s.dkey ∧
    (t.iv ≠ s.iv → s.status.busy = false ∧ a = .wiv t.iv.bytes) ∧
    (t.buf ≠ s.buf ∨ t.len ≠ s.len → s.status.busy = false ∧ ∃ d, a = .ldbuf d ∧ content t = some d) := by
  have hsame {p : Prop} (hbuf : t.buf = s.buf) (hlen : t.len = s.len) : t.buf ≠ s.buf ∨ t.len ≠ s.len → p :=
    fun h => h.elim (absurd hbuf) (absurd hlen)
  cases h with
  | reset => exact absurd rfl ha
  | wkey hb => exact ⟨fun _ => ⟨hb, rfl⟩, absurd rfl, absurd rfl, rfl, absurd rfl, hsame rfl rfl⟩
  | wtok hb => exact ⟨absurd rfl, fun _ => ⟨hb, rfl⟩, absurd rfl, rfl, absurd rfl, hsame rfl rfl⟩
  | issue hb => exact ⟨absurd rfl, absurd rfl, fun _ => ⟨hb, rfl⟩, rfl, absurd rfl, hsame rfl rfl⟩
  | wiv hb => exact ⟨absurd rfl, absurd rfl, absurd rfl, rfl, fun _ => ⟨hb, rfl⟩, hsame rfl rfl⟩
  | ldbuf hb =>
    exact ⟨absurd rfl, absurd rfl, absurd rfl, rfl, absurd rfl, fun _ => ⟨hb, _, rfl, content_holding _ s⟩⟩
  | dropped | record | recordFree =>
    exact ⟨absurd rfl, absurd rfl, absurd rfl, rfl, absurd rfl, hsame rfl rfl⟩

end Sys2Proof.Machine

namespace Sys2Proof

open Machine

/-! ## The obligations of decoding, of the host's actions and of the steps -/

/-- Settles O2: each of the seven operations by evaluation, and each of the seven bytes. -/
theorem decodeAndEncodeAgree : Obligations.DecodeAndEncodeAgree :=
  ⟨fun i _ => decode_encode i, fun _ _ => encode_of_decode⟩

/-- Settles O4: each shape of the agenda leads to the CORE's move, which dispatches on CMD. -/
theorem stepRunsTheDecodedInstruction : Obligations.StepRunsTheDecodedInstruction := by
  intro s i hb hd
  have hfair (hw : waitsForRng s = false) : fairTurn s = exec i s := by
    rw [fairTurn_of_not_waiting hw, coreTurn_of_decode hb hd]
  refine ⟨fun rest hag => ?_, fun r rest hag hdraw => ?_, fun r rest hag hdraw => ?_, fun hag hw => ?_,
    fun rest hag hdone hw => ?_⟩
  · rw [step_of_agenda_core hag]
    exact coreTurn_of_decode (s := { s with agenda := rest }) hb hd
  · rw [step_of_agenda_coreDraw hag, coreTurn_answerWith hb hd, if_pos hdraw]
  · rw [step_of_agenda_coreDraw hag, coreTurn_answerWith hb hd, hdraw, if_neg nofun]
  · rw [step_of_agenda_nil hag, hfair hw]
  · rw [step_of_agenda_wait hag, hdone, if_neg nofun, hfair hw]

/-- Settles O49: by what RESET writes, the same values as after power-on. -/
theorem resetClearsTheBlock : Obligations.ResetClearsTheBlock :=
  ⟨fun s => ⟨hostReset s, rfl, rfl, rfl, rfl, rfl, fun _ => rfl, rfl, rfl, rfl, rfl⟩, rfl, rfl, rfl, rfl, fun _ => rfl⟩

/-- Settles O51: a read of an idle block records the item, or a free value while its flag is 0. -/
theorem resultReadsReturnTheResult : Obligations.ResultReadsReturnTheResult := by
  intro s hidle
  refine ⟨hostAct_rdlen_of_idle hidle, fun _ => hostAct_rdbuf_of_idle hidle, fun hv => ?_, fun hv => ?_, fun hv => ?_,
    fun hv => ?_⟩
  · rw [hostAct_rdiv_of_idle hidle, if_pos hv]; rfl
  · rw [hostAct_rddkey_of_idle hidle, if_pos hv]; rfl
  · rw [hostAct_rdiv_of_idle hidle, hv, if_neg nofun]; exact ⟨_, rfl⟩
  · rw [hostAct_rddkey_of_idle hidle, hv, if_neg nofun]; exact ⟨_, rfl⟩

/-- Settles O52: the writes have an item they write, the result reads record a free value. -/
theorem aBusyBlockDropsHostWrites : Obligations.ABusyBlockDropsHostWrites := by
  refine fun a s => ⟨fun hb => ⟨fun d ha => hostAct_write_of_busy hb ?_, fun b ha => hostAct_write_of_busy hb ?_,
    hostAct_resultRead_of_busy hb⟩, hostAct_of_illFormed⟩
  · rcases ha with rfl | rfl | rfl | rfl <;> rfl
  · rw [ha]; rfl

/-- Settles O53: an action on other contents of KEY and TOK has the same outcome but for them. -/
theorem noHostActionReadsKeyOrTok : Obligations.NoHostActionReadsKeyOrTok :=
  fun a s k t => sameOutcome_iff.2 (hostAct_withSecrets a s k t).symm

/-- Settles O57: an ISSUE, a RESET and an EXEC that does not wait give their pair, and of every other move the
pair is the one before it. -/
theorem busyAndDoneMoveByIssueExecReset : Obligations.BusyAndDoneMoveByIssueExecReset := by
  intro s t hs h
  obtain ⟨-, -, -, hpair, -⟩ := everyStepKeepsTheInvariant s t hs h
  refine ⟨fun ⟨hb, hd⟩ => by simp [hb, hd] at hpair, fun b rest hag hidle => ?_, fun rest hag => ?_,
    fun rest hag hb hw => ?_, fun r rest hag hb => ?_, ?_⟩
  · rw [step_of_agenda_host hag, hostAct_issue_of_idle (s := { s with agenda := rest }) b hidle] at h
    cases h
    exact ⟨rfl, rfl⟩
  · rw [step_of_agenda_host hag] at h
    cases h
    exact ⟨rfl, rfl⟩
  · rw [step_of_agenda_core hag] at h
    exact busy_done_of_coreTurn (s := { s with agenda := rest }) hb hw h
  · rw [step_of_agenda_coreDraw hag] at h
    exact busy_done_of_coreTurn (s := answerWith r { s with agenda := rest }) hb (waitsForRng_answerWith r) h
  · rcases step_busy_done h with hstay | hissue | hreset | ⟨hb, henabled, hidle, hdone⟩
    · exact .inl hstay
    · exact .inr (.inl hissue)
    · exact .inr (.inr (.inl hreset))
    · exact .inr (.inr (.inr ⟨hb, (coherent_busy hs hb).2, hidle, hdone, henabled⟩))

/-- Settles O58: no move but RESET clears a valid flag. -/
theorem validFlagsStayUntilReset : Obligations.ValidFlagsStayUntilReset := by
  intro s t h hreset
  rcases step_cases h with ⟨-, hfair⟩ | ⟨a, rest, hag, hhost⟩ | ⟨rest, -, -, rfl⟩ | ⟨rest, -, -, hfair⟩ |
    ⟨rest, -, hcore⟩ | ⟨r, rest, -, hcore⟩ | ⟨r, rest, -, rfl⟩
  · exact validFlagsStay_of_fairTurn hfair
  · refine validFlagsStay_of_hostAct (s := { s with agenda := rest }) ?_ hhost
    rintro rfl
    exact hreset rest hag
  · exact ⟨id, id, id, id⟩
  · exact validFlagsStay_of_fairTurn hfair
  · exact validFlagsStay_of_coreTurn (s := { s with agenda := rest }) hcore
  · exact validFlagsStay_of_coreTurn (s := answerWith r { s with agenda := rest }) hcore
  · exact ⟨id, id, id, id⟩

/-- Settles O59: a host action writes the register of its name, and every other step writes as the CORE does. -/
theorem registersChangeOnlyByTheirWriters : Obligations.RegistersChangeOnlyByTheirWriters := by
  intro s t h hreset
  have hrng : ∀ r rest, s.agenda = .rng r :: rest → t = { s with agenda := rest, rng := s.rng ++ [r] } := by
    intro r rest hag
    rw [step_of_agenda_rng hag] at h
    cases h
    rfl
  by_cases hhost : ∃ a rest, s.agenda = .host a :: rest
  · obtain ⟨a, rest, hag⟩ := hhost
    rw [step_of_agenda_host hag] at h
    have hne : a ≠ .reset := by rintro rfl; exact hreset rest hag
    obtain ⟨hkey, htok, hcmd, hdkey, hiv, hbuf⟩ := (hostEffect_of_hostAct h).registers hne
    refine ⟨fun hne => ?_, fun hne => ?_, fun hne => ?_, absurd hdkey, fun hne => .inl ?_, fun hne => .inl ?_, hrng⟩
    · obtain ⟨hidle, rfl⟩ := hkey hne
      exact ⟨hidle, _, rest, hag, rfl⟩
    · obtain ⟨hidle, rfl⟩ := htok hne
      exact ⟨hidle, _, rest, hag, rfl⟩
    · obtain ⟨hidle, rfl⟩ := hcmd hne
      exact ⟨hidle, rest, hag⟩
    · obtain ⟨hidle, rfl⟩ := hiv hne
      exact ⟨hidle, _, rest, hag, rfl⟩
    · obtain ⟨hidle, d, rfl, hd⟩ := hbuf hne
      exact ⟨hidle, d, rest, hag, hd⟩
  · obtain ⟨⟨hkey, htok, hcmd⟩, hdkey, hiv, hbuf⟩ :=
      writtenByCore_of_step h fun a rest hag => hhost ⟨a, rest, hag⟩
    refine ⟨absurd hkey, absurd htok, absurd hcmd, hdkey, fun hne => .inr ?_, fun hne => .inr (hbuf hne), hrng⟩
    obtain ⟨hb, hok, ⟨hop, hdrawn⟩ | ⟨hop, hv⟩⟩ := hiv hne
    · exact .inl ⟨hb, hok, hop, hdrawn⟩
    · exact .inr ⟨hb, hok, hop, hv⟩

end Sys2Proof
